-- ==== Sys2Proof/Word.lean ====
section
/-!
DEFINITION. The words of the machine: bytes, 16-bit words, 12-bit addresses in an instruction, register numbers.
Everything is unsigned (spec/00_scope.md R6, R8).
-/

namespace Sys2Proof

/-- A memory cell, a general register, a timer (R5: CELL_BITS, REG_BITS, TIMER_BITS). -/
abbrev Byte := BitVec 8

/-- The instruction word, `pc`, `I`, a stack slot (R5: PC_BITS, I_BITS, STACK_SLOT_BITS). -/
abbrev Word := BitVec 16

/-- The immediate `nnn` of an instruction word (R91). -/
abbrev Addr12 := BitVec 12

/-- A general register's number, 0..15 (R21). -/
abbrev Reg := Fin 16

/-- A key's number, 0..15 (R28). -/
abbrev Key := Fin 16

end Sys2Proof
end

