-- ==== Sys2Proof/Syntax.lean ====
section
/-!
DEFINITION. The instruction set: one constructor for each of the 34 rows of spec/30_encoding.md R95, in the table's
order. Operands are typed by their width (R91): `x`, `y` a register number, `n` a row count 0..15, `kk` a byte, `nnn`
a 12-bit address.
-/

namespace Sys2Proof

/-- An instruction (R95). SHR and SHL have no `y`: all 16 values of that field are the same instruction (R98). -/
inductive Instr where
  /-- 00E0 CLS -/
  | cls
  /-- 00EE RET -/
  | ret
  /-- 1nnn JP nnn -/
  | jp (nnn : Addr12)
  /-- 2nnn CALL nnn -/
  | call (nnn : Addr12)
  /-- 3xkk SE Vx, kk -/
  | seImm (x : Reg) (kk : Byte)
  /-- 4xkk SNE Vx, kk -/
  | sneImm (x : Reg) (kk : Byte)
  /-- 5xy0 SE Vx, Vy -/
  | seReg (x y : Reg)
  /-- 6xkk LD Vx, kk -/
  | ldImm (x : Reg) (kk : Byte)
  /-- 7xkk ADD Vx, kk -/
  | addImm (x : Reg) (kk : Byte)
  /-- 8xy0 LD Vx, Vy -/
  | ldReg (x y : Reg)
  /-- 8xy1 OR Vx, Vy -/
  | orReg (x y : Reg)
  /-- 8xy2 AND Vx, Vy -/
  | andReg (x y : Reg)
  /-- 8xy3 XOR Vx, Vy -/
  | xorReg (x y : Reg)
  /-- 8xy4 ADD Vx, Vy -/
  | addReg (x y : Reg)
  /-- 8xy5 SUB Vx, Vy -/
  | subReg (x y : Reg)
  /-- 8xy6 SHR Vx -/
  | shrReg (x : Reg)
  /-- 8xy7 SUBN Vx, Vy -/
  | subnReg (x y : Reg)
  /-- 8xyE SHL Vx -/
  | shlReg (x : Reg)
  /-- 9xy0 SNE Vx, Vy -/
  | sneReg (x y : Reg)
  /-- Annn LD I, nnn -/
  | ldI (nnn : Addr12)
  /-- Bnnn JP V0, nnn -/
  | jpV0 (nnn : Addr12)
  /-- Cxkk RND Vx, kk -/
  | rnd (x : Reg) (kk : Byte)
  /-- Dxyn DRW Vx, Vy, n -/
  | drw (x y : Reg) (n : Fin 16)
  /-- Ex9E SKP Vx -/
  | skp (x : Reg)
  /-- ExA1 SKNP Vx -/
  | sknp (x : Reg)
  /-- Fx07 LD Vx, DT -/
  | ldVxDT (x : Reg)
  /-- Fx0A LD Vx, K -/
  | ldVxK (x : Reg)
  /-- Fx15 LD DT, Vx -/
  | ldDTVx (x : Reg)
  /-- Fx18 LD ST, Vx -/
  | ldSTVx (x : Reg)
  /-- Fx1E ADD I, Vx -/
  | addIVx (x : Reg)
  /-- Fx29 LD F, Vx -/
  | ldFVx (x : Reg)
  /-- Fx33 LD B, Vx -/
  | ldBVx (x : Reg)
  /-- Fx55 LD [I], Vx -/
  | storeRegs (x : Reg)
  /-- Fx65 LD Vx, [I] -/
  | loadRegs (x : Reg)
  deriving DecidableEq, Repr

/-- Why the decoder gives no instruction. -/
inductive DecodeError where
  /-- The word matches no row of the opcode map (R97). -/
  | unknownOpcode (w : Word)
  /-- Fewer than the two bytes of an instruction were given (R90); a fetch from memory always has two. -/
  | truncated
  deriving DecidableEq, Repr

end Sys2Proof
end

