-- ==== Sys2Proof/WellFormed.lean ====
section
/-!
DEFINITION. Well-formedness: each operand fits its field of the instruction word (spec/30_encoding.md R91, R93). An
instruction's operands are typed by their field's width, so every instruction is well formed (a lemma in
Laws/PerInstr.lean): the hypothesis `i.wf` shuts no form out. The check itself is on operands as the plain numbers
a listing writes (R101), where it can fail.
-/

namespace Sys2Proof

/-- The operands of a listing line as plain numbers (R101, R12); a field the instruction lacks is 0. -/
structure Operands where
  x : Nat := 0
  y : Nat := 0
  n : Nat := 0
  kk : Nat := 0
  nnn : Nat := 0
  deriving DecidableEq, Repr

/-- Each operand fits its field: 4, 4, 4, 8 and 12 bits (R91). -/
def Operands.wf (o : Operands) : Bool :=
  decide (o.x < 16) && decide (o.y < 16) && decide (o.n < 16) && decide (o.kk < 256) && decide (o.nnn < 4096)

/-- The operands of an instruction as its listing line writes them (R101). -/
def Instr.operands : Instr → Operands
  | .cls | .ret => {}
  | .jp nnn | .call nnn | .ldI nnn | .jpV0 nnn => { nnn := nnn.toNat }
  | .seImm x kk | .sneImm x kk | .ldImm x kk | .addImm x kk | .rnd x kk => { x := x.val, kk := kk.toNat }
  | .seReg x y | .sneReg x y | .ldReg x y | .orReg x y | .andReg x y | .xorReg x y | .addReg x y
  | .subReg x y | .subnReg x y => { x := x.val, y := y.val }
  | .drw x y n => { x := x.val, y := y.val, n := n.val }
  | .shrReg x | .shlReg x | .skp x | .sknp x | .ldVxDT x | .ldVxK x | .ldDTVx x | .ldSTVx x | .addIVx x
  | .ldFVx x | .ldBVx x | .storeRegs x | .loadRegs x => { x := x.val }

/-- An instruction is well formed when its operands are. -/
def Instr.wf (i : Instr) : Bool := i.operands.wf

end Sys2Proof
end

