-- ==== Sys2Proof/Decode.lean ====
section
/-!
DEFINITION. Fields, decoder and encoder (spec/30_encoding.md). `decode` classifies a word by its high nibble and,
in families 0, 5, 8, 9, E and F, by the rest as R94 says; `Instr.row` is the mask and match table of R95, and
`encode` assembles the six formats of R92.
-/

namespace Sys2Proof

/-! ## Fields of the instruction word (R91) -/

/-- `op` = w[15:12], the family selector. -/
def opField (w : Word) : BitVec 4 := w.extractLsb' 12 4

/-- `x` = w[11:8]. -/
def xField (w : Word) : Reg := (w.extractLsb' 8 4).toFin

/-- `y` = w[7:4]. -/
def yField (w : Word) : Reg := (w.extractLsb' 4 4).toFin

/-- `n` = w[3:0]. -/
def nField (w : Word) : Fin 16 := (w.extractLsb' 0 4).toFin

/-- `kk` = w[7:0]. -/
def kkField (w : Word) : Byte := w.extractLsb' 0 8

/-- `nnn` = w[11:0]. -/
def nnnField (w : Word) : Addr12 := w.extractLsb' 0 12

/-! ## The decoder (R94, R95, R97) -/

/-- Family 8, decided by `n` (R94, R96). -/
def decodeAlu (w : Word) : Except DecodeError Instr :=
  match (nField w).val with
  | 0x0 => .ok (.ldReg (xField w) (yField w))
  | 0x1 => .ok (.orReg (xField w) (yField w))
  | 0x2 => .ok (.andReg (xField w) (yField w))
  | 0x3 => .ok (.xorReg (xField w) (yField w))
  | 0x4 => .ok (.addReg (xField w) (yField w))
  | 0x5 => .ok (.subReg (xField w) (yField w))
  | 0x6 => .ok (.shrReg (xField w))
  | 0x7 => .ok (.subnReg (xField w) (yField w))
  | 0xE => .ok (.shlReg (xField w))
  | _ => .error (.unknownOpcode w)

/-- Family E, decided by `kk` (R94). -/
def decodeKeypad (w : Word) : Except DecodeError Instr :=
  if kkField w = 0x9E#8 then .ok (.skp (xField w))
  else if kkField w = 0xA1#8 then .ok (.sknp (xField w))
  else .error (.unknownOpcode w)

/-- Family F, decided by `kk` (R94). -/
def decodeMisc (w : Word) : Except DecodeError Instr :=
  if kkField w = 0x07#8 then .ok (.ldVxDT (xField w))
  else if kkField w = 0x0A#8 then .ok (.ldVxK (xField w))
  else if kkField w = 0x15#8 then .ok (.ldDTVx (xField w))
  else if kkField w = 0x18#8 then .ok (.ldSTVx (xField w))
  else if kkField w = 0x1E#8 then .ok (.addIVx (xField w))
  else if kkField w = 0x29#8 then .ok (.ldFVx (xField w))
  else if kkField w = 0x33#8 then .ok (.ldBVx (xField w))
  else if kkField w = 0x55#8 then .ok (.storeRegs (xField w))
  else if kkField w = 0x65#8 then .ok (.loadRegs (xField w))
  else .error (.unknownOpcode w)

/-- The instruction a word is, or the word as an unknown opcode (R94, R95, R97). It reads nothing but the word. -/
def decode (w : Word) : Except DecodeError Instr :=
  match (opField w).toNat with
  | 0x0 =>
    if w = 0x00E0#16 then .ok .cls
    else if w = 0x00EE#16 then .ok .ret
    else .error (.unknownOpcode w)
  | 0x1 => .ok (.jp (nnnField w))
  | 0x2 => .ok (.call (nnnField w))
  | 0x3 => .ok (.seImm (xField w) (kkField w))
  | 0x4 => .ok (.sneImm (xField w) (kkField w))
  | 0x5 => if nField w = 0 then .ok (.seReg (xField w) (yField w)) else .error (.unknownOpcode w)
  | 0x6 => .ok (.ldImm (xField w) (kkField w))
  | 0x7 => .ok (.addImm (xField w) (kkField w))
  | 0x8 => decodeAlu w
  | 0x9 => if nField w = 0 then .ok (.sneReg (xField w) (yField w)) else .error (.unknownOpcode w)
  | 0xA => .ok (.ldI (nnnField w))
  | 0xB => .ok (.jpV0 (nnnField w))
  | 0xC => .ok (.rnd (xField w) (kkField w))
  | 0xD => .ok (.drw (xField w) (yField w) (nField w))
  | 0xE => decodeKeypad w
  | 0xF => decodeMisc w
  | _ => .error (.unknownOpcode w)

/-- The word two bytes make, the first (lower address) the more significant (R64, R90). UNVERIFIED (log 3). -/
def wordOfBytes (hi lo : Byte) : Word := hi ++ lo

/-- Decode the instruction at the head of a byte sequence and return it with the bytes after it (R90). -/
def decodeBytes : List Byte → Except DecodeError (Instr × List Byte)
  | hi :: lo :: rest =>
    match decode (wordOfBytes hi lo) with
    | .ok i => .ok (i, rest)
    | .error e => .error e
  | _ => .error .truncated

/-! ## The encoder (R92) -/

/-- A register number as its 4-bit field. -/
def regBits (r : Fin 16) : BitVec 4 := BitVec.ofNat 4 r.val

/-- Format A: op, nnn. -/
def formatA (op : BitVec 4) (nnn : Addr12) : Word := op ++ nnn

/-- Formats XK and X: op, x, and the byte `kk` or the sub-selector byte. -/
def formatXK (op : BitVec 4) (x : Reg) (kk : Byte) : Word := (op ++ regBits x) ++ kk

/-- Formats XY and XYN: op, x, y, and the sub-selector or `n`. -/
def formatXYN (op : BitVec 4) (x y : Reg) (n : Fin 16) : Word := ((op ++ regBits x) ++ regBits y) ++ regBits n

/-- The word of an instruction (R92, R95); SHR and SHL are assembled with y = 0 (R101). -/
def encode : Instr → Word
  | .cls => 0x00E0#16
  | .ret => 0x00EE#16
  | .jp nnn => formatA 0x1#4 nnn
  | .call nnn => formatA 0x2#4 nnn
  | .seImm x kk => formatXK 0x3#4 x kk
  | .sneImm x kk => formatXK 0x4#4 x kk
  | .seReg x y => formatXYN 0x5#4 x y 0x0
  | .ldImm x kk => formatXK 0x6#4 x kk
  | .addImm x kk => formatXK 0x7#4 x kk
  | .ldReg x y => formatXYN 0x8#4 x y 0x0
  | .orReg x y => formatXYN 0x8#4 x y 0x1
  | .andReg x y => formatXYN 0x8#4 x y 0x2
  | .xorReg x y => formatXYN 0x8#4 x y 0x3
  | .addReg x y => formatXYN 0x8#4 x y 0x4
  | .subReg x y => formatXYN 0x8#4 x y 0x5
  | .shrReg x => formatXYN 0x8#4 x 0 0x6
  | .subnReg x y => formatXYN 0x8#4 x y 0x7
  | .shlReg x => formatXYN 0x8#4 x 0 0xE
  | .sneReg x y => formatXYN 0x9#4 x y 0x0
  | .ldI nnn => formatA 0xA#4 nnn
  | .jpV0 nnn => formatA 0xB#4 nnn
  | .rnd x kk => formatXK 0xC#4 x kk
  | .drw x y n => formatXYN 0xD#4 x y n
  | .skp x => formatXK 0xE#4 x 0x9E#8
  | .sknp x => formatXK 0xE#4 x 0xA1#8
  | .ldVxDT x => formatXK 0xF#4 x 0x07#8
  | .ldVxK x => formatXK 0xF#4 x 0x0A#8
  | .ldDTVx x => formatXK 0xF#4 x 0x15#8
  | .ldSTVx x => formatXK 0xF#4 x 0x18#8
  | .addIVx x => formatXK 0xF#4 x 0x1E#8
  | .ldFVx x => formatXK 0xF#4 x 0x29#8
  | .ldBVx x => formatXK 0xF#4 x 0x33#8
  | .storeRegs x => formatXK 0xF#4 x 0x55#8
  | .loadRegs x => formatXK 0xF#4 x 0x65#8

/-- The two bytes of an instruction as memory holds them, the high byte first (R64). -/
def encodeBytes (i : Instr) : List Byte := [(encode i).extractLsb' 8 8, (encode i).extractLsb' 0 8]

/-! ## The opcode map as mask and match (R95) -/

/-- The mask and match of the row an instruction belongs to (R95). -/
def Instr.row : Instr → Word × Word
  | .cls => (0xFFFF#16, 0x00E0#16)
  | .ret => (0xFFFF#16, 0x00EE#16)
  | .jp _ => (0xF000#16, 0x1000#16)
  | .call _ => (0xF000#16, 0x2000#16)
  | .seImm _ _ => (0xF000#16, 0x3000#16)
  | .sneImm _ _ => (0xF000#16, 0x4000#16)
  | .seReg _ _ => (0xF00F#16, 0x5000#16)
  | .ldImm _ _ => (0xF000#16, 0x6000#16)
  | .addImm _ _ => (0xF000#16, 0x7000#16)
  | .ldReg _ _ => (0xF00F#16, 0x8000#16)
  | .orReg _ _ => (0xF00F#16, 0x8001#16)
  | .andReg _ _ => (0xF00F#16, 0x8002#16)
  | .xorReg _ _ => (0xF00F#16, 0x8003#16)
  | .addReg _ _ => (0xF00F#16, 0x8004#16)
  | .subReg _ _ => (0xF00F#16, 0x8005#16)
  | .shrReg _ => (0xF00F#16, 0x8006#16)
  | .subnReg _ _ => (0xF00F#16, 0x8007#16)
  | .shlReg _ => (0xF00F#16, 0x800E#16)
  | .sneReg _ _ => (0xF00F#16, 0x9000#16)
  | .ldI _ => (0xF000#16, 0xA000#16)
  | .jpV0 _ => (0xF000#16, 0xB000#16)
  | .rnd _ _ => (0xF000#16, 0xC000#16)
  | .drw _ _ _ => (0xF000#16, 0xD000#16)
  | .skp _ => (0xF0FF#16, 0xE09E#16)
  | .sknp _ => (0xF0FF#16, 0xE0A1#16)
  | .ldVxDT _ => (0xF0FF#16, 0xF007#16)
  | .ldVxK _ => (0xF0FF#16, 0xF00A#16)
  | .ldDTVx _ => (0xF0FF#16, 0xF015#16)
  | .ldSTVx _ => (0xF0FF#16, 0xF018#16)
  | .addIVx _ => (0xF0FF#16, 0xF01E#16)
  | .ldFVx _ => (0xF0FF#16, 0xF029#16)
  | .ldBVx _ => (0xF0FF#16, 0xF033#16)
  | .storeRegs _ => (0xF0FF#16, 0xF055#16)
  | .loadRegs _ => (0xF0FF#16, 0xF065#16)

/-- The 34 rows of R95 in the table's order, each as its mask and match. -/
def opcodeRows : List (Word × Word) :=
  [(0xFFFF#16, 0x00E0#16), (0xFFFF#16, 0x00EE#16), (0xF000#16, 0x1000#16), (0xF000#16, 0x2000#16),
   (0xF000#16, 0x3000#16), (0xF000#16, 0x4000#16), (0xF00F#16, 0x5000#16), (0xF000#16, 0x6000#16),
   (0xF000#16, 0x7000#16)] ++
  [(0xF00F#16, 0x8000#16), (0xF00F#16, 0x8001#16), (0xF00F#16, 0x8002#16), (0xF00F#16, 0x8003#16),
   (0xF00F#16, 0x8004#16), (0xF00F#16, 0x8005#16), (0xF00F#16, 0x8006#16), (0xF00F#16, 0x8007#16),
   (0xF00F#16, 0x800E#16)] ++
  [(0xF00F#16, 0x9000#16), (0xF000#16, 0xA000#16), (0xF000#16, 0xB000#16), (0xF000#16, 0xC000#16),
   (0xF000#16, 0xD000#16), (0xF0FF#16, 0xE09E#16), (0xF0FF#16, 0xE0A1#16)] ++
  [(0xF0FF#16, 0xF007#16), (0xF0FF#16, 0xF00A#16), (0xF0FF#16, 0xF015#16), (0xF0FF#16, 0xF018#16),
   (0xF0FF#16, 0xF01E#16), (0xF0FF#16, 0xF029#16), (0xF0FF#16, 0xF033#16), (0xF0FF#16, 0xF055#16),
   (0xF0FF#16, 0xF065#16)]

/-- The instruction the decoder reads from `w`, whose bits are numbered as spec/opcode_table.json numbers them (bit 15
the top of the one 16-bit word, every bit from `nbits` up being 0), laid out as memory holds it, high byte first. -/
def decodeTableWord (nbits w : Nat) : Option Instr :=
  let word : Word := BitVec.ofNat 16 (w % 2 ^ nbits)
  match decodeBytes [word.extractLsb' 8 8, word.extractLsb' 0 8] with
  | .ok (i, _) => some i
  | .error _ => none

end Sys2Proof
end

