-- ==== Sys2Proof/Config.lean ====
section
/-!
DEFINITION. What an implementation fixes (spec/00_scope.md R5) and the one free value the spec leaves open, the
random byte. The 80 font bytes, the other open parameter of R5, are Machine/Font.lean's.
-/

namespace Sys2Proof

/-- MEM_SIZE (R5): the number of memory cells. -/
def Config.memSize : Nat := 4096

/-- STACK_DEPTH (R5): the number of stack slots. -/
def Config.stackDepth : Nat := 16

/-- PROG_BASE (R5): the first cell of the program image and the reset value of pc. -/
def Config.progBase : Nat := 0x200

/-- MAX_IMAGE (R5): the largest program image, 4096 - 0x200. -/
def Config.maxImage : Nat := Config.memSize - Config.progBase

/-- The byte the `k`-th execution of Cxkk draws (R230, R267, decision D14): no body, so nothing is known of any draw
and a claim about one holds for every source of random bytes. DESIGN CHOICE (log 1): the draws are numbered by
`State.draws`. -/
opaque Config.rndByte : Nat → Byte

end Sys2Proof
end

