-- ==== Sys2Proof/Machine/Font.lean ====
section
/-!
DEFINITION. The built-in font: the parameter FONT (spec/00_scope.md R5, spec/10_state.md R29) and its default table.
PRESUMED (log 2): the spec takes the 80 default bytes from general knowledge (decision D5).
-/

namespace Sys2Proof.Machine

/-- FONT[0..79], glyph d at bytes 5d to 5d + 4 (R29). Any 80 bytes are a font. -/
abbrev Font := Vector Byte 80

/-- The default glyphs 0..F, five rows each, in order (R29). -/
def fontTable : List Byte :=
  [0xF0, 0x90, 0x90, 0x90, 0xF0] ++ [0x20, 0x60, 0x20, 0x20, 0x70] ++
  [0xF0, 0x10, 0xF0, 0x80, 0xF0] ++ [0xF0, 0x10, 0xF0, 0x10, 0xF0] ++
  [0x90, 0x90, 0xF0, 0x10, 0x10] ++ [0xF0, 0x80, 0xF0, 0x10, 0xF0] ++
  [0xF0, 0x80, 0xF0, 0x90, 0xF0] ++ [0xF0, 0x10, 0x20, 0x40, 0x40] ++
  [0xF0, 0x90, 0xF0, 0x90, 0xF0] ++ [0xF0, 0x90, 0xF0, 0x10, 0xF0] ++
  [0xF0, 0x90, 0xF0, 0x90, 0x90] ++ [0xE0, 0x90, 0xE0, 0x90, 0xE0] ++
  [0xF0, 0x80, 0x80, 0x80, 0xF0] ++ [0xE0, 0x90, 0x90, 0x90, 0xE0] ++
  [0xF0, 0x80, 0xF0, 0x80, 0xF0] ++ [0xF0, 0x80, 0xF0, 0x80, 0x80]

/-- The default of the parameter FONT (R29). -/
def defaultFont : Font := ⟨fontTable.toArray, rfl⟩

/-- What cell `a` holds after `Reset` (R35): `FONT[a]` for the first 80 cells, zero elsewhere. -/
def initialByte (f : Font) (a : Nat) : Byte := if h : a < 80 then f[a] else 0

end Sys2Proof.Machine
end

