-- ==== Sys2Proof/Machine/State.lean ====
section
/-!
DEFINITION. The machine's state (spec/10_state.md R20), its value after `Reset` (R35), and the reasons an operation
can end without a next state. State is plain data.
-/

namespace Sys2Proof.Machine

/-- The fault latch (spec/60_exceptions.md R256, spec/90_conflicts.md C12). -/
inductive Halt where
  | none
  | stackOverflow
  | stackUnderflow
  deriving DecidableEq, Repr

/-- The display: 32 rows of 64 one-bit pixels (R31). The order of storage is the model's (D20, log 20). -/
abbrev Display := Vector (Vector Bool 64) 32

/-- MachineState (R20): everything the spec gives the machine; and two fields of the model's own, the parameter FONT and
the counter of random draws. -/
structure State where
  /-- `Mem`: the cells that differ from their reset contents, by rising address (R30; Ops.lean reads it). -/
  mem : List Host.Cell
  /-- `V[0..15]` (R21); VF is `V[15]` (R22). -/
  v : Vector Byte 16
  /-- The program counter (R23). -/
  pc : Word
  /-- The index register `I` (R25). -/
  i : Word
  /-- The 16 call stack slots, outside memory (R26). -/
  stack : Vector Word 16
  /-- The number of return addresses held, 0..16 (R26). -/
  sp : Fin 17
  /-- The delay timer (R27). -/
  dt : Byte
  /-- The sound timer (R27). -/
  st : Byte
  /-- The keypad latch, true meaning pressed (R28). -/
  key : Vector Bool 16
  /-- The display buffer (R31). -/
  px : Display
  /-- The draw-flag (R32). -/
  df : Bool
  /-- The fault latch (R256). -/
  halt : Halt
  /-- The model's own: how many bytes Cxkk has drawn. DESIGN CHOICE (log 1). -/
  draws : Nat
  /-- The model's own: the parameter FONT (R5, R29), fixed for a machine. `Reset` copies it to memory; nothing writes it, so
  a claim about every state is a claim about every font. It stands here because the step takes no other argument. DESIGN
  CHOICE (log 34). -/
  font : Font
  deriving DecidableEq, Repr

/-- The state right after `Reset` of a machine with the font `f` (R35, R300): memory holds its reset contents, so it lists
no cell. `draws` is the model's own and starts at 0: DESIGN CHOICE (log 1). -/
def State.resetWith (f : Font) : State where
  mem := []
  v := Vector.replicate 16 0
  pc := 0x0200
  i := 0x0000
  stack := Vector.replicate 16 0
  sp := 0
  dt := 0
  st := 0
  key := Vector.replicate 16 false
  px := Vector.replicate 32 (Vector.replicate 64 false)
  df := true
  halt := .none
  draws := 0
  font := f

/-- The state right after `Reset`, FONT at its default (R29, log 2). -/
def State.reset : State := State.resetWith defaultFont

/-- The one way an operation fails. No instruction and no `Step` raises it: the two stack conditions and an unknown
opcode have an effect the spec describes and are next states (R250, R251, R252). -/
inductive Fault where
  /-- OutOfSpace (R253): raised by `Load` alone, for an image of more than 3584 bytes, between a `Reset` and the first
  `Step`. Memory is untouched. Safe. -/
  | outOfSpace
  deriving DecidableEq, Repr

/-- Why an operation has no meaning. -/
inductive Refusal where
  /-- An instruction that has no meaning yet; raised by `exec`'s refused arms only, of which none is left. Safe. -/
  | notModelled (mnemonic : String)
  /-- `Load` after a `Step` or without a preceding `Reset` (R73, R303: "a model gives it no meaning"); raised by `Load`
  alone. Safe. -/
  | loadOutsideLaunch
  /-- `Step` before any `Reset` (spec/93_implementation_defined.md U16: no meaning, refuse); raised by the driver's
  invocation of `Step` in a session without a `Reset`, never by `step` itself. Safe. -/
  | stepBeforeReset
  deriving DecidableEq, Repr

end Sys2Proof.Machine
end

