-- ==== Sys2Proof/Machine/Ops.lean ====
section
/-!
DEFINITION. The named operations over memory, registers, stack, display and latches, the advance of pc, the fetch, and
the one operation by which a condition is taken.
-/

namespace Sys2Proof.Machine

/-! ## Memory as a canonical list of cells -/

/-- The byte at cell `a`: the listed one, else the reset contents (R35). -/
def Memory.read (f : Font) : List Host.Cell → Nat → Byte
  | [], a => initialByte f a
  | (b, w) :: m, a => if b = a then w else Memory.read f m a

/-- The list without any entry for cell `a`, which then reads as its reset contents. -/
def Memory.erase (m : List Host.Cell) (a : Nat) : List Host.Cell := m.filter (fun c => decide (c.1 ≠ a))

/-- List cell `a` as holding `w`, before the first cell of a higher address. -/
def Memory.insert (a : Nat) (w : Byte) : List Host.Cell → List Host.Cell
  | [] => [(a, w)]
  | (b, u) :: m => if a < b then (a, w) :: (b, u) :: m else (b, u) :: Memory.insert a w m

/-- Set cell `a` to `w`, keeping the list's canonical form: the reset contents are not listed. -/
def Memory.write (f : Font) (m : List Host.Cell) (a : Nat) (w : Byte) : List Host.Cell :=
  if w = initialByte f a then Memory.erase m a else Memory.insert a w (Memory.erase m a)

/-- From address `lo` on: addresses strictly rising and below 4096, no entry equal to the reset contents. -/
def Memory.wfFrom (f : Font) : Nat → List Host.Cell → Bool
  | _, [] => true
  | lo, (a, w) :: m =>
    decide (lo ≤ a) && decide (a < Config.memSize) && decide (w ≠ initialByte f a) && Memory.wfFrom f (a + 1) m

/-- The canonical form, in which equal memories are equal lists. -/
def Memory.wf (f : Font) (m : List Host.Cell) : Bool := Memory.wfFrom f 0 m

/-- The cell an address selects: its low 12 bits (R63). UNVERIFIED (log 4): decision D2. -/
def cellOf (a : Word) : Nat := a.toNat % Config.memSize

/-- `MemRead(a, 1)` (R10, R63). -/
def State.readMem (s : State) (a : Word) : Byte := Memory.read s.font s.mem (cellOf a)

/-- `MemWrite(a, 1, w)` (R10, R63); every cell is writable, the font's too (R62). -/
def State.writeMem (s : State) (a : Word) (w : Byte) : State :=
  { s with mem := Memory.write s.font s.mem (cellOf a) w }

/-! ## Registers -/

/-- `V[r]`. -/
def State.getV (s : State) (r : Reg) : Byte := s.v[r]

/-- `V[r] <- b`. No register is hard-wired (R21). -/
def State.setV (s : State) (r : Reg) (b : Byte) : State := { s with v := s.v.set r b }

/-- `pc <- target`; no range or alignment check (R23, R66). -/
def State.setPc (s : State) (target : Word) : State := { s with pc := target }

/-- `I <- w`; all 16 bits are kept (R25). -/
def State.setI (s : State) (w : Word) : State := { s with i := w }

/-- `DT <- b` (R27). -/
def State.setDT (s : State) (b : Byte) : State := { s with dt := b }

/-- `ST <- b` (R27). -/
def State.setST (s : State) (b : Byte) : State := { s with st := b }

/-- `Key[k] <- down`; the input collaborator's, never an instruction's (R28). -/
def State.setKey (s : State) (k : Key) (down : Bool) : State := { s with key := s.key.set k down }

/-- `Key[k]`. -/
def State.getKey (s : State) (k : Key) : Bool := s.key[k]

/-- The display buffer as a whole. -/
def State.setPx (s : State) (d : Display) : State := { s with px := d }

/-- `DF <- b` (R32). -/
def State.setDF (s : State) (b : Bool) : State := { s with df := b }

/-- The fault latch (R256). -/
def State.setHalt (s : State) (h : Halt) : State := { s with halt := h }

/-- One more random byte drawn (log 1). -/
def State.countDraw (s : State) : State := { s with draws := s.draws + 1 }

/-- `pc <- (pc + 2) mod 65536`, how every instruction that does not set pc ends (R123). -/
def State.advance (s : State) : State := s.setPc (s.pc + 2)

/-- How a skip ends: pc + 4 when the condition holds, else pc + 2, mod 65536 (R123). -/
def State.skipIf (s : State) (c : Bool) : State := s.setPc (s.pc + if c then 4 else 2)

/-! ## The call stack (R26) -/

/-- The slot a push writes, `stack[sp]`, when there is one. UNVERIFIED (log 23): decision D24. -/
def State.pushSlot (s : State) : Option (Fin 16) := if h : s.sp.val < 16 then some ⟨s.sp.val, h⟩ else none

/-- The slot a pop reads, `stack[sp - 1]`, when the stack is not empty. -/
def State.popSlot (s : State) : Option (Fin 16) :=
  if h : 0 < s.sp.val then some ⟨s.sp.val - 1, by omega⟩ else none

/-- `stack[k]`. -/
def State.getStack (s : State) (k : Fin 16) : Word := s.stack[k]

/-- `stack[k] <- w; sp <- k + 1`, for `k` the push slot. -/
def State.push (s : State) (k : Fin 16) (w : Word) : State := { s with stack := s.stack.set k w, sp := k.succ }

/-- `sp <- k`, for `k` the pop slot; the slot keeps its value (R26). -/
def State.pop (s : State) (k : Fin 16) : State := { s with sp := k.castSucc }

/-! ## The display (R31) -/

/-- `Px[x, y]`. -/
def Display.get (d : Display) (x : Fin 64) (y : Fin 32) : Bool := d[y][x]

/-- `Px[x, y] <- Px[x, y] xor 1`. -/
def Display.toggle (d : Display) (x : Fin 64) (y : Fin 32) : Display := d.set y (d[y].set x (!d[y][x]))

/-- Every pixel clear. -/
def Display.clear : Display := Vector.replicate 32 (Vector.replicate 64 false)

/-! ## The keypad (R234) -/

/-- The least pressed key among `Key[0..15]`, scanned in ascending order. -/
def State.firstKey (s : State) : Option Key := (List.finRange 16).find? (fun k => s.getKey k)

/-! ## Fetch (R121) -/

/-- The word at pc: `Mem[pc mod 4096] ++ Mem[(pc + 1) mod 4096]` (R64). It raises nothing (R66, R67). -/
def State.fetch (s : State) : Word := wordOfBytes (s.readMem s.pc) (s.readMem (s.pc + 1))

/-- `s` with the word `w` stored where the next step fetches, and the latch cleared so that it does fetch. -/
def State.placeWord (s : State) (w : Word) : State :=
  ((s.writeMem s.pc (w.extractLsb' 8 8)).writeMem (s.pc + 1) (w.extractLsb' 0 8)).setHalt .none

/-! ## Conditions: how one is taken (R250, R251, R252, R256) -/

/-- Take a fatal condition: nothing of the instruction is written, the latch records the condition, pc still holds the
instruction's address (R250, R251, R255). No handler is entered and there is no return but `Reset` (R259, R260).
UNVERIFIED (log 15): decision D15. -/
def State.raise (s : State) (c : Halt) : State := s.setHalt c

/-- What a `Step` at an unknown opcode leaves: the same state, pc included; it is not fatal (R252). UNVERIFIED (log 24):
decision D26. -/
def State.unknownOpcode (s : State) (_w : Word) : State := s

/-- What a `Step` leaves while the latch is set: the same state (R256). -/
def State.whileHalted (s : State) : State := s

end Sys2Proof.Machine
end

