-- ==== Sys2Proof/Machine/Operands.lean ====
section
/-!
DEFINITION. The operand forms of the instruction set: immediates are zero-extended (spec/30_encoding.md R93), memory is
addressed by I + k alone (spec/43_index_memory.md R196), keys by the low four bits of a register (R237).
-/

namespace Sys2Proof.Machine

/-- VF, the flag register, is `V[15]` (R22). -/
def vf : Reg := 15

/-- `zext_16(nnn)` (R93). -/
def zextAddr (nnn : Addr12) : Word := nnn.setWidth 16

/-- `zext_16(b)` (R10). -/
def zextByte (b : Byte) : Word := b.setWidth 16

/-- The effective address I + k of every data access; `cellOf` takes it mod 4096 (R196). -/
def State.ea (s : State) (k : Nat) : Word := s.i + BitVec.ofNat 16 k

/-- The key a register selects: its low four bits (R237). UNVERIFIED (log 11): decision D10. -/
def keySelect (b : Byte) : Key := Fin.ofNat 16 b.toNat

/-- A key's number as a byte (R234). -/
def keyByte (k : Key) : Byte := BitVec.ofNat 8 k.val

/-- The hundreds digit (R193). -/
def hundreds (b : Byte) : Byte := BitVec.ofNat 8 (b.toNat / 100)

/-- The tens digit (R193). -/
def tens (b : Byte) : Byte := BitVec.ofNat 8 (b.toNat / 10 % 10)

/-- The units digit (R193). -/
def units (b : Byte) : Byte := BitVec.ofNat 8 (b.toNat % 10)

/-- The address of glyph `b`: `b * 5`, no mask (R192). UNVERIFIED (log 12): decision D11. -/
def glyphAddr (b : Byte) : Word := BitVec.ofNat 16 (b.toNat * 5)

/-- The display column of a sprite's column `c`: (Vx + c) mod 64 (R211). -/
def spriteX (vx : Byte) (c : Nat) : Fin 64 := Fin.ofNat 64 (vx.toNat + c)

/-- The display row of a sprite's row `r`: (Vy + r) mod 32 (R211). -/
def spriteY (vy : Byte) (r : Nat) : Fin 32 := Fin.ofNat 32 (vy.toNat + r)

/-- Column `c` of a sprite row is bit 7 - c (R211). UNVERIFIED (log 19): decision D19. -/
def spriteBit (row : Byte) (c : Nat) : Bool := row.getLsbD (7 - c)

end Sys2Proof.Machine
end

