-- ==== Sys2Proof/Machine/Flags.lean ====
section
/-!
DEFINITION. Every flag the machine computes, as the byte VF receives (spec/10_state.md R22), and the order in which a
result and its flag are written (spec/42_alu.md R171).
-/

namespace Sys2Proof.Machine

/-- A flag as the byte written to VF. -/
def flagByte (b : Bool) : Byte := if b then 1 else 0

/-- Carry out of `a + b`: 1 exactly when the sum exceeds 255 (R166, R172). -/
def carry (a b : Byte) : Byte := flagByte (decide (a.toNat + b.toNat > 255))

/-- NOT borrow of `a - b`: 1 exactly when a >= b (R167, R172). -/
def notBorrow (a b : Byte) : Byte := flagByte (decide (a.toNat ≥ b.toNat))

/-- The low bit before a right shift (R168). -/
def lowBit (a : Byte) : Byte := flagByte (a.getLsbD 0)

/-- The high bit before a left shift (R170). -/
def highBit (a : Byte) : Byte := flagByte (a.getLsbD 7)

/-- Write the result to `V[x]` and then the flag to VF, so with x = 15 the flag wins (R171). UNVERIFIED (log 8):
decision D7. -/
def State.setResultFlag (s : State) (x : Reg) (result flag : Byte) : State := (s.setV x result).setV vf flag

end Sys2Proof.Machine
end

