-- ==== Sys2Proof/Machine/Alu.lean ====
section
/-!
DEFINITION. Register load, arithmetic, logic and shift (spec/42_alu.md). Operands are read from the state at the start
of the step; the result is written first and the flag last (R171).
-/

namespace Sys2Proof.Machine

/-- 6xkk LD Vx, kk (R160). -/
def execLdImm (x : Reg) (kk : Byte) (s : State) : Host.Outcome State Fault Refusal := .next (s.setV x kk).advance

/-- 7xkk ADD Vx, kk (R161): wraps, no flag. -/
def execAddImm (x : Reg) (kk : Byte) (s : State) : Host.Outcome State Fault Refusal :=
  .next (s.setV x (s.getV x + kk)).advance

/-- 8xy0 LD Vx, Vy (R162). -/
def execLdReg (x y : Reg) (s : State) : Host.Outcome State Fault Refusal := .next (s.setV x (s.getV y)).advance

/-- 8xy1 OR Vx, Vy (R163): VF is left as it was. -/
def execOrReg (x y : Reg) (s : State) : Host.Outcome State Fault Refusal :=
  .next (s.setV x (s.getV x ||| s.getV y)).advance

/-- 8xy2 AND Vx, Vy (R164): VF is left as it was. -/
def execAndReg (x y : Reg) (s : State) : Host.Outcome State Fault Refusal :=
  .next (s.setV x (s.getV x &&& s.getV y)).advance

/-- 8xy3 XOR Vx, Vy (R165): VF is left as it was. -/
def execXorReg (x y : Reg) (s : State) : Host.Outcome State Fault Refusal :=
  .next (s.setV x (s.getV x ^^^ s.getV y)).advance

/-- 8xy4 ADD Vx, Vy (R166): VF = carry. -/
def execAddReg (x y : Reg) (s : State) : Host.Outcome State Fault Refusal :=
  .next (s.setResultFlag x (s.getV x + s.getV y) (carry (s.getV x) (s.getV y))).advance

/-- 8xy5 SUB Vx, Vy (R167): VF = NOT borrow. -/
def execSubReg (x y : Reg) (s : State) : Host.Outcome State Fault Refusal :=
  .next (s.setResultFlag x (s.getV x - s.getV y) (notBorrow (s.getV x) (s.getV y))).advance

/-- 8xy6 SHR Vx (R168): Vx in place, y ignored. UNVERIFIED (log 7): decision D6. -/
def execShrReg (x : Reg) (s : State) : Host.Outcome State Fault Refusal :=
  .next (s.setResultFlag x (s.getV x >>> 1) (lowBit (s.getV x))).advance

/-- 8xy7 SUBN Vx, Vy (R169): Vy - Vx into Vx. -/
def execSubnReg (x y : Reg) (s : State) : Host.Outcome State Fault Refusal :=
  .next (s.setResultFlag x (s.getV y - s.getV x) (notBorrow (s.getV y) (s.getV x))).advance

/-- 8xyE SHL Vx (R170): Vx in place, y ignored. UNVERIFIED (log 7): decision D6. -/
def execShlReg (x : Reg) (s : State) : Host.Outcome State Fault Refusal :=
  .next (s.setResultFlag x (s.getV x <<< 1) (highBit (s.getV x))).advance

end Sys2Proof.Machine
end

