-- ==== Sys2Proof/Machine/Devices.lean ====
section
/-!
DEFINITION. Random number, keypad and timer register instructions (spec/45_keypad_timer_random.md).
-/

namespace Sys2Proof.Machine

/-- Cxkk RND Vx, kk (R230): the next free byte and kk. The byte is a free value (log 1). -/
def execRnd (x : Reg) (kk : Byte) (s : State) : Host.Outcome State Fault Refusal :=
  .next (s.countDraw.setV x (Config.rndByte s.draws &&& kk)).advance

/-- Ex9E SKP Vx (R231). -/
def execSkp (x : Reg) (s : State) : Host.Outcome State Fault Refusal :=
  .next (s.skipIf (s.getKey (keySelect (s.getV x))))

/-- ExA1 SKNP Vx (R232). -/
def execSknp (x : Reg) (s : State) : Host.Outcome State Fault Refusal :=
  .next (s.skipIf (!s.getKey (keySelect (s.getV x))))

/-- Fx07 LD Vx, DT (R233). -/
def execLdVxDT (x : Reg) (s : State) : Host.Outcome State Fault Refusal := .next (s.setV x s.dt).advance

/-- Fx0A LD Vx, K (R234): with no key pressed nothing is written and pc stays, so the next step polls again. The latch is
only read (UNVERIFIED, log 14: decision D13). -/
def execLdVxK (x : Reg) (s : State) : Host.Outcome State Fault Refusal :=
  match s.firstKey with
  | some k => .next (s.setV x (keyByte k)).advance
  | none => .next s

/-- Fx15 LD DT, Vx (R235). -/
def execLdDTVx (x : Reg) (s : State) : Host.Outcome State Fault Refusal := .next (s.setDT (s.getV x)).advance

/-- Fx18 LD ST, Vx (R236); it emits no tone. -/
def execLdSTVx (x : Reg) (s : State) : Host.Outcome State Fault Refusal := .next (s.setST (s.getV x)).advance

end Sys2Proof.Machine
end

