-- ==== Sys2Proof/Machine/Display.lean ====
section
/-!
DEFINITION. The sprite raster-and-collision engine (spec/44_display.md): CLS and DRW.
-/

namespace Sys2Proof.Machine

/-- 00E0 CLS (R210). -/
def execCls (s : State) : Host.Outcome State Fault Refusal := .next ((s.setPx Display.clear).setDF true).advance

/-- The display while a sprite is drawn, and whether a set pixel has been cleared so far (`hit`). -/
abbrev Canvas := Display × Bool

/-- One sprite pixel (R212): a 1 bit toggles its display pixel and hits when that pixel was set; a 0 bit does nothing. -/
def drawPixel (bit : Bool) (x : Fin 64) (y : Fin 32) (p : Canvas) : Canvas :=
  if bit then (Display.toggle p.1 x y, p.2 || Display.get p.1 x y) else p

/-- The first `c` columns of a sprite row, ascending (R212). -/
def drawCols (row vx : Byte) (y : Fin 32) : Nat → Canvas → Canvas
  | 0, p => p
  | c + 1, p => drawPixel (spriteBit row c) (spriteX vx c) y (drawCols row vx y c p)

/-- The first `r` rows of a sprite, ascending; row `r` is the cell at I + r (R211, R212). -/
def drawRows (s : State) (vx vy : Byte) : Nat → Canvas → Canvas
  | 0, p => p
  | r + 1, p => drawCols (s.readMem (s.ea r)) vx (spriteY vy r) 8 (drawRows s vx vy r p)

/-- The display and the hit flag after drawing `n` rows at (`vx`, `vy`), all sampled from `s` (R212). -/
def State.sprite (s : State) (vx vy : Byte) (n : Nat) : Canvas := drawRows s vx vy n (s.px, false)

/-- Dxyn DRW Vx, Vy, n (R212): coordinates from the old Vx and Vy, VF written once at the end, DF raised
unconditionally. UNVERIFIED (log 17): decision D17. -/
def execDrw (x y : Reg) (n : Fin 16) (s : State) : Host.Outcome State Fault Refusal :=
  let p := s.sprite (s.getV x) (s.getV y) n.val
  .next (((s.setPx p.1).setV vf (flagByte p.2)).setDF true).advance

end Sys2Proof.Machine
end

