-- ==== Sys2Proof/Machine/Flow.lean ====
section
/-!
DEFINITION. Control transfer (spec/41_flow.md): RET, JP, CALL, the four register skips, JP V0.
-/

namespace Sys2Proof.Machine

/-- 00EE RET (R140): StackUnderflow on an empty stack (R251); else pop into pc. -/
def execRet (s : State) : Host.Outcome State Fault Refusal :=
  match s.popSlot with
  | none => .next (s.raise .stackUnderflow)
  | some k => .next ((s.pop k).setPc (s.getStack k))

/-- 1nnn JP nnn (R141). -/
def execJp (nnn : Addr12) (s : State) : Host.Outcome State Fault Refusal := .next (s.setPc (zextAddr nnn))

/-- 2nnn CALL nnn (R142): StackOverflow on a full stack (R250); else push pc + 2 and jump. -/
def execCall (nnn : Addr12) (s : State) : Host.Outcome State Fault Refusal :=
  match s.pushSlot with
  | none => .next (s.raise .stackOverflow)
  | some k => .next ((s.push k (s.pc + 2)).setPc (zextAddr nnn))

/-- 3xkk SE Vx, kk (R143). UNVERIFIED (log 21): decision D21 gives SE equality. -/
def execSeImm (x : Reg) (kk : Byte) (s : State) : Host.Outcome State Fault Refusal :=
  .next (s.skipIf (s.getV x == kk))

/-- 4xkk SNE Vx, kk (R144). -/
def execSneImm (x : Reg) (kk : Byte) (s : State) : Host.Outcome State Fault Refusal :=
  .next (s.skipIf (s.getV x != kk))

/-- 5xy0 SE Vx, Vy (R145). -/
def execSeReg (x y : Reg) (s : State) : Host.Outcome State Fault Refusal :=
  .next (s.skipIf (s.getV x == s.getV y))

/-- 9xy0 SNE Vx, Vy (R146). -/
def execSneReg (x y : Reg) (s : State) : Host.Outcome State Fault Refusal :=
  .next (s.skipIf (s.getV x != s.getV y))

/-- Bnnn JP V0, nnn (R147): the register is always V0. -/
def execJpV0 (nnn : Addr12) (s : State) : Host.Outcome State Fault Refusal :=
  .next (s.setPc (zextAddr nnn + zextByte (s.getV 0)))

end Sys2Proof.Machine
end

