-- ==== Sys2Proof/Machine/Index.lean ====
section
/-!
DEFINITION. Index register and memory transfer (spec/43_index_memory.md). No instruction of this family writes VF as a
flag, and a memory access leaves I as it was (R196; UNVERIFIED, log 13: decision D12).
-/

namespace Sys2Proof.Machine

/-- Annn LD I, nnn (R190). -/
def execLdI (nnn : Addr12) (s : State) : Host.Outcome State Fault Refusal := .next (s.setI (zextAddr nnn)).advance

/-- Fx1E ADD I, Vx (R191): mod 65536, no flag. -/
def execAddIVx (x : Reg) (s : State) : Host.Outcome State Fault Refusal :=
  .next (s.setI (s.i + zextByte (s.getV x))).advance

/-- Fx29 LD F, Vx (R192). -/
def execLdFVx (x : Reg) (s : State) : Host.Outcome State Fault Refusal :=
  .next (s.setI (glyphAddr (s.getV x))).advance

/-- Fx33 LD B, Vx (R193): hundreds, tens, units at I, I + 1, I + 2. -/
def execLdBVx (x : Reg) (s : State) : Host.Outcome State Fault Refusal :=
  .next (((s.writeMem (s.ea 0) (hundreds (s.getV x))).writeMem (s.ea 1) (tens (s.getV x))).writeMem
    (s.ea 2) (units (s.getV x))).advance

/-- Store the first `k` registers at I, I + 1, ..., ascending (R194). -/
def State.storeUpTo (s : State) : Nat → State
  | 0 => s
  | k + 1 => (s.storeUpTo k).writeMem (s.ea k) (s.getV (Fin.ofNat 16 k))

/-- Fx55 LD [I], Vx (R194): V0..Vx, x + 1 cells. -/
def execStoreRegs (x : Reg) (s : State) : Host.Outcome State Fault Refusal :=
  .next (s.storeUpTo (x.val + 1)).advance

/-- Load the first `k` registers from I, I + 1, ..., ascending (R195). -/
def State.loadUpTo (s : State) : Nat → State
  | 0 => s
  | k + 1 => (s.loadUpTo k).setV (Fin.ofNat 16 k) (s.readMem (s.ea k))

/-- Fx65 LD Vx, [I] (R195): V0..Vx, x + 1 cells. -/
def execLoadRegs (x : Reg) (s : State) : Host.Outcome State Fault Refusal :=
  .next (s.loadUpTo (x.val + 1)).advance

end Sys2Proof.Machine
end

