-- ==== Sys2Proof/Machine/Step.lean ====
section
/-!
DEFINITION. `Step` (spec/40_cycle.md R128): the latch is tested, the word at pc is fetched and decoded, and the
instruction's meaning is applied. `Step` is one of the machine's operations; the others are Machine/Agents.lean's.
-/

namespace Sys2Proof.Machine

/-- One `Step` (R128). What it returns to the driver beside the state is `CycleOutcome.ofStep` (R125). -/
def step (s : State) : Host.Outcome State Fault Refusal :=
  match s.halt with
  | .stackOverflow => .next s.whileHalted
  | .stackUnderflow => .next s.whileHalted
  | .none =>
    match decode s.fetch with
    | .ok i => exec i s
    | .error _ => .next (s.unknownOpcode s.fetch)

/-- `s` with the instruction whose table bits are `w` (those from `nbits` up being 0) stored at pc and pc + 1, high byte
first, and the fault latch cleared, without which `Step` fetches nothing (log 26). -/
def State.withFetchWord (s : State) (nbits w : Nat) : State := s.placeWord (BitVec.ofNat 16 (w % 2 ^ nbits))

end Sys2Proof.Machine
end

