-- ==== Sys2Proof/Machine/Agents.lean ====
section
/-!
DEFINITION. The machine's other operations (spec/60_exceptions.md R262, R270, R271; spec/70_reset_and_hazards.md R300,
R303, R304) and its outputs. A behaviour of the machine is a finite or infinite sequence of operations, in any order and proportion
(R271).
-/

namespace Sys2Proof.Machine

/-! ## What a step returns (R125) -/

/-- CycleOutcome (R125). -/
inductive CycleOutcome where
  | ok
  | unknownOpcode (w : Word)
  | stackOverflow
  | stackUnderflow
  deriving DecidableEq, Repr

/-- The outcome a latch value stands for (R256). -/
def CycleOutcome.ofHalt : Halt → CycleOutcome
  | .none => .ok
  | .stackOverflow => .stackOverflow
  | .stackUnderflow => .stackUnderflow

/-- What `Step` returns when invoked in `s` (R125, R128): an unknown opcode with its word, else the condition the latch
holds after the step, which is `Ok` for none. -/
def CycleOutcome.ofStep (s : State) : CycleOutcome :=
  match s.halt, decode s.fetch, step s with
  | .none, .error _, _ => .unknownOpcode s.fetch
  | _, _, .next t => .ofHalt t.halt
  | h, _, _ => .ofHalt h

/-- The numeric codes (R125); no instruction reads them. -/
def CycleOutcome.code : CycleOutcome → Nat
  | .ok => 0
  | .unknownOpcode _ => 1
  | .stackOverflow => 2
  | .stackUnderflow => 3

/-- The loader's code (R254). -/
def Fault.code : Fault → Nat
  | .outOfSpace => 4

/-! ## Tick (R262) -/

/-- A timer moves one towards 0 and stays there (R262). -/
def countDown (b : Byte) : Byte := if b = 0 then 0 else b - 1

/-- `Tick` (R262): both timers count down, unless the latch is set (R256). -/
def State.tick (s : State) : State :=
  match s.halt with
  | .none => (s.setDT (countDown s.dt)).setST (countDown s.st)
  | .stackOverflow => s
  | .stackUnderflow => s

/-- Whether `Tick` emits the tone event: it finds ST = 1 and the latch clear (R262). -/
def State.tickTone (s : State) : Bool := s.halt == .none && s.st == 1

/-! ## Reset and Load (R300, R304) -/

/-- `Reset` (R300), from any state. The machine keeps its font. The model's own draw counter goes on, so a draw after
`Reset` is a fresh one: DESIGN CHOICE (log 1). -/
def State.doReset (s : State) : State := { State.resetWith s.font with draws := s.draws }

/-- Copy an image into memory from cell `a` on (R304). -/
def State.copyFrom (s : State) (a : Nat) : List Byte → State
  | [] => s
  | b :: bs => (s.writeMem (BitVec.ofNat 16 a) b).copyFrom (a + 1) bs

/-- The effect of `Load(image)` (R304): OutOfSpace for more than 3584 bytes, memory untouched; else the image is copied to
0x200 on and every other cell is as it was. UNVERIFIED (log 18): decision D18. -/
def State.load (s : State) (image : List Byte) : Host.Outcome State Fault Refusal :=
  if image.length > Config.maxImage then .fault .outOfSpace else .next (s.copyFrom Config.progBase image)

/-! ## The order of start-up (R303) -/

/-- How far start-up has come (R303). It is a fact about the order of operations so far, which is not state the core keeps
(R34), so it stands beside the machine's state and not in it. -/
inductive Phase where
  /-- No `Reset` has been invoked. -/
  | beforeReset
  /-- A `Reset` has been invoked and no `Step` since: the image may be loaded. -/
  | ready
  /-- A `Step` has been invoked since the last `Reset`. -/
  | running
  deriving DecidableEq, Repr

/-- The machine together with how far start-up has come. -/
structure Session where
  phase : Phase
  core : State
  deriving DecidableEq, Repr

/-- A machine with the font `f` just created: "in a fully zeroed state except the pre-loaded font region" (R301). -/
def Session.boot (f : Font) : Session := ⟨.beforeReset, State.resetWith f⟩

/-- The state an operation leaves, with the phase it leads to. -/
def Session.lift (p : Phase) : Host.Outcome State Fault Refusal → Host.Outcome Session Fault Refusal
  | .next t => .next ⟨p, t⟩
  | .fault r => .fault r
  | .refused r => .refused r

/-- The driver invokes `Step`. Without a `Reset` it has no meaning (spec/93_implementation_defined.md U16). -/
def Session.step (s : Session) : Host.Outcome Session Fault Refusal :=
  match s.phase with
  | .beforeReset => .refused .stepBeforeReset
  | .ready => Session.lift .running (Sys2Proof.Machine.step s.core)
  | .running => Session.lift .running (Sys2Proof.Machine.step s.core)

/-- The loader invokes `Load(image)`: only after a `Reset` and before the first `Step` (R73, R270, R303), whatever the
image's length (R253). The spec does not say what a second `Load` in that span does (N27); the model performs it like the
first, on memory as the first left it: DESIGN CHOICE (log 18). -/
def Session.load (s : Session) (image : List Byte) : Host.Outcome Session Fault Refusal :=
  match s.phase with
  | .beforeReset => .refused .loadOutsideLaunch
  | .ready => Session.lift .ready (s.core.load image)
  | .running => .refused .loadOutsideLaunch

/-! ## The operations and their runs (R270, R271) -/

/-- Every operation by which the machine's state can change (R270). -/
inductive Op where
  /-- The driver invokes `Step`. -/
  | step
  /-- The driver invokes `Tick`. -/
  | tick
  /-- The input collaborator sets or clears `Key[k]` (R264). -/
  | keyWrite (k : Key) (down : Bool)
  /-- The renderer clears DF (R265). -/
  | drawFlagClear
  /-- The driver invokes `Reset`. -/
  | reset
  /-- The loader invokes `Load(image)`. -/
  | load (image : List Byte)
  deriving DecidableEq, Repr

/-- One operation. Only `Step` and `Load` need a `Reset` before them (R303, U16); that the others act without one is the
model's: DESIGN CHOICE (log 18). -/
def Op.perform (s : Session) : Op → Host.Outcome Session Fault Refusal
  | .step => s.step
  | .tick => .next ⟨s.phase, s.core.tick⟩
  | .keyWrite k down => .next ⟨s.phase, s.core.setKey k down⟩
  | .drawFlagClear => .next ⟨s.phase, s.core.setDF false⟩
  | .reset => .next ⟨.ready, s.core.doReset⟩
  | .load image => s.load image

/-- One of the four kinds that may follow start-up in any order and proportion (R271). -/
def Op.ordinary : Op → Bool
  | .step => true
  | .tick => true
  | .keyWrite _ _ => true
  | .drawFlagClear => true
  | .reset => false
  | .load _ => false

/-- A finite sequence of whole operations, one at a time (R70). The spec leaves the end of a run to the model (R127,
spec/93_implementation_defined.md U19): a sequence ends where the list does, and what counts as the end of a program is
`State.Ended` of Safety.lean. DESIGN CHOICE (log 35). -/
def runOps : List Op → Session → Host.Outcome Session Fault Refusal
  | [], s => .next s
  | op :: ops, s =>
    match op.perform s with
    | .next t => runOps ops t
    | .fault r => .fault r
    | .refused r => .refused r

/-- An infinite sequence of operations, `ss k` being the session before operation `k` (R271). -/
def IsRun (ops : Nat → Op) (ss : Nat → Session) : Prop := ∀ k, (ops k).perform (ss k) = .next (ss (k + 1))

/-- What the core gives out (R125, R266); the core keeps no record of it (R34). -/
inductive Event where
  /-- The value a `Step` returns. -/
  | cycle (o : CycleOutcome)
  /-- The tone trigger. -/
  | tone
  deriving DecidableEq, Repr

/-- The outputs of one operation that is performed on a machine in state `s`. -/
def Op.emits (s : State) : Op → List Event
  | .step => [.cycle (.ofStep s)]
  | .tick => if s.tickTone then [.tone] else []
  | .keyWrite _ _ => []
  | .drawFlagClear => []
  | .reset => []
  | .load _ => []

/-- What the renderer may read: the pixels, while the draw-flag is raised (R265, R270). -/
def State.frame (s : State) : Option Display := if s.df then some s.px else none

end Sys2Proof.Machine
end

