-- ==== Sys2Proof/Safety.lean ====
section
/-!
DEFINITION. The terms claims use: which parts of the state a transition may change, the invariant, and what a program
must keep for the source's own guarantees to apply (spec/70_reset_and_hazards.md R311).
-/

namespace Sys2Proof.Machine

/-! ## Frames -/

/-- The parts of the state (R20), and the model's draw counter and font. -/
inductive Part where
  | mem | regs | pc | index | stack | sp | dt | st | key | px | df | halt | draws | font
  deriving DecidableEq, Repr

/-- `t` agrees with `s` on a part; memory is compared byte by byte, as a read sees it. -/
def Part.same (s t : State) : Part → Prop
  | .mem => ∀ a : Word, t.readMem a = s.readMem a
  | .regs => ∀ r : Reg, t.getV r = s.getV r
  | .pc => t.pc = s.pc
  | .index => t.i = s.i
  | .stack => ∀ k : Fin 16, t.getStack k = s.getStack k
  | .sp => t.sp = s.sp
  | .dt => t.dt = s.dt
  | .st => t.st = s.st
  | .key => ∀ k : Key, t.getKey k = s.getKey k
  | .px => ∀ (x : Fin 64) (y : Fin 32), Display.get t.px x y = Display.get s.px x y
  | .df => t.df = s.df
  | .halt => t.halt = s.halt
  | .draws => t.draws = s.draws
  | .font => t.font = s.font

/-- Every part but the listed ones is as it was. -/
def ChangedOnly (ps : List Part) (s t : State) : Prop := ∀ p, p ∉ ps → p.same s t

/-- Every register but the listed ones is as it was. -/
def RegsKeptBut (rs : List Reg) (s t : State) : Prop := ∀ r, r ∉ rs → t.getV r = s.getV r

/-! ## The invariant -/

/-- Memory is in canonical form: strictly rising cells below 4096, none equal to its reset contents. -/
def State.Inv (s : State) : Prop := Memory.wf s.font s.mem = true

/-! ## Runs of instructions -/

/-- Instructions executed one after another, whatever memory holds. -/
def execAll : List Instr → State → Host.Outcome State Fault Refusal
  | [], s => .next s
  | i :: is, s =>
    match exec i s with
    | .next t => execAll is t
    | .fault r => .fault r
    | .refused r => .refused r

/-- `k` ticks. -/
def State.ticks (s : State) : Nat → State
  | 0 => s
  | k + 1 => (s.ticks k).tick

/-- How many tone events the first `k` ticks emit. -/
def State.tones (s : State) : Nat → Nat
  | 0 => 0
  | k + 1 => s.tones k + if (s.ticks k).tickTone then 1 else 0

/-! ## The spec's own tables, as the claims cite them -/

/-- pc after an instruction (R24, the table), `s` being the state before it. -/
def pcAfter (s : State) : Instr → Word
  | .jp nnn => nnn.setWidth 16
  | .call nnn => if s.sp.val < 16 then nnn.setWidth 16 else s.pc
  | .ret => if 0 < s.sp.val then s.getStack (Fin.ofNat 16 (s.sp.val - 1)) else s.pc
  | .jpV0 nnn => nnn.setWidth 16 + (s.getV 0).setWidth 16
  | .seImm x kk => if s.getV x = kk then s.pc + 4 else s.pc + 2
  | .sneImm x kk => if s.getV x ≠ kk then s.pc + 4 else s.pc + 2
  | .seReg x y => if s.getV x = s.getV y then s.pc + 4 else s.pc + 2
  | .sneReg x y => if s.getV x ≠ s.getV y then s.pc + 4 else s.pc + 2
  | .skp x => if s.getKey (Fin.ofNat 16 (s.getV x).toNat) = true then s.pc + 4 else s.pc + 2
  | .sknp x => if s.getKey (Fin.ofNat 16 (s.getV x).toNat) = false then s.pc + 4 else s.pc + 2
  | .ldVxK _ => if ∃ k : Key, s.getKey k = true then s.pc + 2 else s.pc
  | .cls | .ldImm _ _ | .addImm _ _ | .ldReg _ _ | .orReg _ _ | .andReg _ _ | .xorReg _ _ | .addReg _ _
  | .subReg _ _ | .shrReg _ | .subnReg _ _ | .shlReg _ | .ldI _ | .rnd _ _ | .drw _ _ _ | .ldVxDT _ | .ldDTVx _
  | .ldSTVx _ | .addIVx _ | .ldFVx _ | .ldBVx _ | .storeRegs _ | .loadRegs _ => s.pc + 2

/-- The registers an instruction may write (R21, R22). -/
def regsWritten : Instr → List Reg
  | .ldImm x _ | .addImm x _ | .ldReg x _ | .orReg x _ | .andReg x _ | .xorReg x _ | .rnd x _ | .ldVxDT x
  | .ldVxK x => [x]
  | .addReg x _ | .subReg x _ | .shrReg x | .subnReg x _ | .shlReg x => [x, 15]
  | .drw _ _ _ => [15]
  | .loadRegs x => (List.finRange 16).filter (fun r => decide (r ≤ x))
  | .cls | .ret | .jp _ | .call _ | .seImm _ _ | .sneImm _ _ | .seReg _ _ | .sneReg _ _ | .ldI _ | .jpV0 _ | .skp _
  | .sknp _ | .ldDTVx _ | .ldSTVx _ | .addIVx _ | .ldFVx _ | .ldBVx _ | .storeRegs _ => []

/-- The parts of the state an instruction may change besides pc and the registers (R25, R26, R27, R31, R32, R33, R60);
RND also advances the model's draw counter (log 1). -/
def partsWritten : Instr → List Part
  | .cls | .drw _ _ _ => [.px, .df]
  | .ret => [.sp, .halt]
  | .call _ => [.stack, .sp, .halt]
  | .ldI _ | .addIVx _ | .ldFVx _ => [.index]
  | .rnd _ _ => [.draws]
  | .ldDTVx _ => [.dt]
  | .ldSTVx _ => [.st]
  | .ldBVx _ | .storeRegs _ => [.mem]
  | .jp _ | .seImm _ _ | .sneImm _ _ | .seReg _ _ | .sneReg _ _ | .jpV0 _ | .skp _ | .sknp _ | .ldImm _ _ | .addImm _ _
  | .ldReg _ _ | .orReg _ _ | .andReg _ _ | .xorReg _ _ | .addReg _ _ | .subReg _ _ | .shrReg _ | .subnReg _ _
  | .shlReg _ | .ldVxDT _ | .ldVxK _ | .loadRegs _ => []

/-- The sprite at I with `n` rows, drawn at (`vx`, `vy`), has a 1 bit on pixel (X, Y) (R211). -/
def State.spriteCovers (s : State) (vx vy : Byte) (n : Nat) (X : Fin 64) (Y : Fin 32) : Prop :=
  ∃ r < n, ∃ c < 8, (s.readMem (s.ea r)).getLsbD (7 - c) = true ∧
    X.val = (vx.toNat + c) % 64 ∧ Y.val = (vy.toNat + r) % 32

/-- The words that are no instruction, family by family (R97). -/
def UnknownByFamily (w : Word) : Prop :=
  let op := w.toNat / 4096
  (op = 0x0 ∧ w ≠ 0x00E0#16 ∧ w ≠ 0x00EE#16) ∨
  ((op = 0x5 ∨ op = 0x9) ∧ w.toNat % 16 ≠ 0) ∨
  (op = 0x8 ∧ w.toNat % 16 ∈ [0x8, 0x9, 0xA, 0xB, 0xC, 0xD, 0xF]) ∨
  (op = 0xE ∧ w.toNat % 256 ∉ [0x9E, 0xA1]) ∨
  (op = 0xF ∧ w.toNat % 256 ∉ [0x07, 0x0A, 0x15, 0x18, 0x1E, 0x29, 0x33, 0x55, 0x65])

/-- Digit `k` of a byte's decimal expansion: hundreds, tens, units for 0, 1, 2 (R193). -/
def decimalDigit (k n : Nat) : Nat := n / 10 ^ (2 - k) % 10

/-! ## Standing still, and the end of a run (R269, R127) -/

/-- Fx0A at pc with every key up. -/
def State.WaitsForKey (s : State) : Prop :=
  s.halt = .none ∧ (∃ x, decode s.fetch = .ok (.ldVxK x)) ∧ ∀ key, s.getKey key = false

/-- A jump, 1nnn or Bnnn, to its own address at pc. -/
def State.JumpsToItself (s : State) : Prop :=
  s.halt = .none ∧
    ((∃ nnn, decode s.fetch = .ok (.jp nnn) ∧ nnn.toNat = s.pc.toNat) ∨
     ∃ nnn, decode s.fetch = .ok (.jpV0 nnn) ∧ nnn.toNat + (s.getV 0).toNat = s.pc.toNat)

/-- An unknown opcode at pc. -/
def State.AtUnknownOpcode (s : State) : Prop := s.halt = .none ∧ UnknownByFamily s.fetch

/-- The fault latch is set. -/
def State.Halted (s : State) : Prop := s.halt ≠ .none

/-- The end of a program, which the spec leaves to the model (R127, spec/93_implementation_defined.md U19): a jump to
itself, an unknown opcode or a set latch. A key wait is no end, since a key can be pressed. DESIGN CHOICE (log 35). -/
def State.Ended (s : State) : Prop := s.JumpsToItself ∨ s.AtUnknownOpcode ∨ s.Halted

/-- A successful end: the jump to itself alone (R127, U1, U13, U19). DESIGN CHOICE (log 35). -/
def State.EndedWell (s : State) : Prop := s.JumpsToItself

/-! ## Inside the source's promises (R311, spec/93_implementation_defined.md U2 to U5) -/

/-- `k` cells from I on lie within 0..4095 (R311). -/
def State.cellsInRange (s : State) (k : Nat) : Bool := decide (k = 0 ∨ s.i.toNat + k ≤ Config.memSize)

/-- `k` cells from I on lie above the font (R311). -/
def State.cellsPastFont (s : State) (k : Nat) : Bool := decide (k = 0 ∨ 80 ≤ s.i.toNat)

/-- An instruction keeps the obligations of R311 in `s`. -/
def keepsPromises (s : State) : Instr → Bool
  | .call _ => decide (s.sp.val < 16)
  | .ret => decide (0 < s.sp.val)
  | .drw _ _ n => s.cellsInRange n.val
  | .ldBVx _ => s.cellsInRange 3 && s.cellsPastFont 3
  | .storeRegs x => s.cellsInRange (x.val + 1) && s.cellsPastFont (x.val + 1)
  | .loadRegs x => s.cellsInRange (x.val + 1)
  | .skp x | .sknp x | .ldFVx x => decide ((s.getV x).toNat < 16)
  | .cls | .jp _ | .seImm _ _ | .sneImm _ _ | .seReg _ _ | .ldImm _ _ | .addImm _ _ | .ldReg _ _ | .orReg _ _
  | .andReg _ _ | .xorReg _ _ | .addReg _ _ | .subReg _ _ | .shrReg _ | .subnReg _ _ | .shlReg _ | .sneReg _ _
  | .ldI _ | .jpV0 _ | .rnd _ _ | .ldVxDT _ | .ldVxK _ | .ldDTVx _ | .ldSTVx _ | .addIVx _ => true

/-- The next step is one the source promises something about: pc even and within 0x200..4094, a defined instruction, its
obligations kept (R311). A run of such steps is a safe run. -/
def State.withinPromises (s : State) : Bool :=
  decide (s.halt = .none) && decide (0x200 ≤ s.pc.toNat) && decide (s.pc.toNat ≤ 4094) &&
  decide (s.pc.toNat % 2 = 0) &&
  match decode s.fetch with
  | .ok i => keepsPromises s i
  | .error _ => false

end Sys2Proof.Machine
end

