-- ==== Sys2Proof/Certificates/Slice0/Obligations.lean ====
section
/-!
DEFINITION. The statements for the provers, from the numbered rules of spec/. Where a clause rests on a decision of
spec/92_eei_decisions.md, on an inference the spec marks as its own, or on a choice of this model's log, the docstring
says so.
-/

open Sys2Proof Sys2Proof.Machine

/-! ## Reset and invariants -/

/-- R35, R300: what `Reset` leaves, from any state and for every FONT (R29): the state `State.resetWith` of the machine's
font, of which `State.reset` is the one with the default font (log 2). `halt` is decision D15. -/
def Obligations.ResetLeavesTheResetState : Prop :=
  (∀ s : Session, ∃ t, Op.perform s .reset = .next ⟨.ready, t⟩ ∧ ChangedOnly [.draws] (State.resetWith s.core.font) t) ∧
  State.reset = State.resetWith defaultFont ∧
  ∀ f : Font, let r := State.resetWith f
    (∀ a : Word, r.readMem a = if h : a.toNat % 4096 < 80 then f[a.toNat % 4096] else 0) ∧
    (∀ x, r.getV x = 0) ∧ r.pc = 0x200 ∧ r.i = 0 ∧ (∀ k, r.getStack k = 0) ∧ r.sp = 0 ∧ r.dt = 0 ∧ r.st = 0 ∧
    (∀ k, r.getKey k = false) ∧ (∀ x y, Display.get r.px x y = false) ∧ r.df = true ∧ r.halt = .none ∧ r.font = f

/-- The reset state, whatever the font, meets the invariant that memory is in canonical form. -/
def Obligations.ResetMeetsInvariant : Prop := State.reset.Inv ∧ ∀ f : Font, (State.resetWith f).Inv

/-- Every step from any state with canonical memory leaves canonical memory. -/
def Obligations.StepKeepsInvariant : Prop :=
  ∀ s t : State, s.Inv → step s = .next t → t.Inv

/-- R271: so does every finite sequence of `Step`, `Tick`, key writes, draw-flag clears, `Reset` and `Load` (decision D22,
log 22), those before any `Reset` included, where acting at all is the model's choice (log 18). -/
def Obligations.EveryScheduleKeepsInvariant : Prop :=
  ∀ (ops : List Op) (s t : Session), s.core.Inv → runOps ops s = .next t → t.core.Inv

/-- R254: no step of any state ends in a fault or a refusal; there is no address, alignment or arithmetic error. That the
stack conditions and an unknown opcode are next states follows decisions D15 and D26. -/
def Obligations.EveryStepAnswersNext : Prop :=
  ∀ s : State, ∃ t, step s = .next t

/-! ## Encoding -/

/-- Decoding an instruction's word gives the instruction back, with every operand at every value. -/
def Obligations.DecodeEncodeRoundTrip : Prop :=
  ∀ i : Instr, decode (encode i) = .ok i ∧ decodeBytes (encodeBytes i) = .ok (i, [])

/-- R95: a word is a row's instruction exactly when the word and the row's mask make the row's match, and no two rows take
the same word. -/
def Obligations.OpcodeRowsDecideDecoding : Prop :=
  opcodeRows.length = 34 ∧
  (∀ row ∈ opcodeRows, ∀ w : Word, w &&& row.1 = row.2 ↔ ∃ i, decode w = .ok i ∧ i.row = row) ∧
  opcodeRows.Pairwise (fun p q => ∀ w : Word, ¬(w &&& p.1 = p.2 ∧ w &&& q.1 = q.2))

/-- R98: every instruction word assembles back to itself, but for the y field of SHR and SHL, which takes part in nothing
(decision D6) and is assembled as 0 (R101). -/
def Obligations.DecodedWordsReassemble : Prop :=
  ∀ (w : Word) (i : Instr), decode w = .ok i →
    encode i = match i with
      | .shrReg _ => w &&& 0xFF0F#16
      | .shlReg _ => w &&& 0xFF0F#16
      | _ => w

/-- R97: the words that are no instruction, family by family; the decoder names the word it refuses. -/
def Obligations.UnknownWordsByFamily : Prop :=
  ∀ w : Word, (UnknownByFamily w → decode w = .error (.unknownOpcode w)) ∧
    (¬ UnknownByFamily w → ∃ i, decode w = .ok i)

/-- A few words of R95 and R97, one or two of each format. That 8126 is SHR and 8017 SUBN is decision D8 (log 9), that SHR
carries no y is decision D6 (logs 7, 29), and that 01E0 and 5121 are unknown is decision D9 (log 10). -/
def Obligations.SampleWordsDecode : Prop :=
  decode 0x00E0 = .ok .cls ∧ decode 0x1ABC = .ok (.jp 0xABC) ∧ decode 0x332A = .ok (.seImm 3 0x2A) ∧
  decode 0x8126 = .ok (.shrReg 1) ∧ decode 0x8017 = .ok (.subnReg 0 1) ∧ decode 0xD125 = .ok (.drw 1 2 5) ∧
  decode 0xE2A1 = .ok (.sknp 2) ∧ decode 0xF333 = .ok (.ldBVx 3) ∧
  decode 0x01E0 = .error (.unknownOpcode 0x01E0) ∧ decode 0x5121 = .error (.unknownOpcode 0x5121)

/-! ## The step -/

/-- R128: with the latch clear, a step runs the instruction the two bytes at pc make, the lower address the more
significant (decision D1), whatever pc is (decisions D2, D3), and adds nothing around it. -/
def Obligations.StepRunsTheDecodedInstruction : Prop :=
  ∀ (s : State) (hi lo : Byte) (i : Instr), s.halt = .none → s.readMem s.pc = hi → s.readMem (s.pc + 1) = lo →
    decode (hi ++ lo) = .ok i → i.wf = true → step s = exec i s

/-- An instruction's word placed at pc is what the next step runs, in a state that differs from the given one in the cells
at pc and pc + 1 and in the latch alone (the model's `withFetchWord`, log 26). -/
def Obligations.PlacedInstructionRuns : Prop :=
  ∀ (s : State) (i : Instr), let p := s.withFetchWord 16 (encode i).toNat
    step p = exec i p ∧ p.halt = .none ∧ ChangedOnly [.mem, .halt] s p ∧
    ∀ a, cellOf a ≠ cellOf s.pc → cellOf a ≠ cellOf (s.pc + 1) → p.readMem a = s.readMem a

/-- R252: an unknown opcode changes nothing, pc and the latch included, and is reported with its word (decision D26). -/
def Obligations.UnknownOpcodeChangesNothing : Prop :=
  ∀ s : State, s.halt = .none → UnknownByFamily s.fetch →
    step s = .next s ∧ Op.emits s .step = [.cycle (.unknownOpcode s.fetch)]

/-- R256: while the latch is set, `Step` and `Tick` change nothing, `Step` returns the recorded condition and `Tick` emits
nothing; only `Reset` clears the latch (decision D15, log 15; the outcome's value is D16, log 16). That `Tick` acts before
any `Reset` too is the model's choice (log 18). -/
def Obligations.SetLatchFreezesTheMachine : Prop :=
  ∀ s : Session, s.core.halt ≠ .none →
    step s.core = .next s.core ∧ Op.emits s.core .step = [.cycle (.ofHalt s.core.halt)] ∧
    Op.perform s .tick = .next s ∧ Op.emits s.core .tick = [] ∧
    (∀ op t, Op.perform s op = .next t → t.core.halt = .none → op = .reset) ∧
    ∃ t, Op.perform s .reset = .next t ∧ t.core.halt = .none

/-- R125: what `Step` returns when it executes an instruction (the values are decision D16). -/
def Obligations.StepReturnsItsOutcome : Prop :=
  ∀ (s : State) (i : Instr), s.halt = .none → decode s.fetch = .ok i →
    CycleOutcome.ofStep s =
      match i with
      | .call _ => if s.sp.val = 16 then .stackOverflow else .ok
      | .ret => if s.sp.val = 0 then .stackUnderflow else .ok
      | _ => .ok

/-- R126: a step never writes Key and never clears DF, emits no tone, and changes DT and ST only by Fx15 and Fx18. -/
def Obligations.StepLeavesTimersKeysAndDrawFlag : Prop :=
  ∀ s t : State, step s = .next t →
    (∀ k, t.getKey k = s.getKey k) ∧ (s.df = true → t.df = true) ∧ Event.tone ∉ Op.emits s .step ∧
    ((∀ x, decode s.fetch ≠ .ok (.ldDTVx x)) → t.dt = s.dt) ∧ ((∀ x, decode s.fetch ≠ .ok (.ldSTVx x)) → t.st = s.st)

/-- R24: pc after each instruction, the whole table. The sums are mod 65536 (decision D3). -/
def Obligations.PcFollowsTheTable : Prop :=
  ∀ (i : Instr) (s t : State), exec i s = .next t → t.pc = pcAfter s i

/-- R21, R22, R25, R26, R27, R28, R31, R33: each instruction writes only the registers and the parts of the state the
tables name, and every other register, part and byte of memory is as it was. -/
def Obligations.OnlyTheNamedStateIsWritten : Prop :=
  ∀ (i : Instr) (s t : State), exec i s = .next t →
    RegsKeptBut (regsWritten i) s t ∧ ChangedOnly ([.pc, .regs] ++ partsWritten i) s t

/-- R27, R32, R212: no instruction reads ST or DF, and the display reaches nothing but itself and, by DRW, VF. Two states
that differ only in ST and DF run alike in everything but ST and DF, pixels and every register included; two that differ only
in pixels run alike in everything, ST and DF included, but for pixels and, after DRW, VF; two that differ in all three run
alike but for those and, after DRW, VF. ST is either written with the same value in both runs or left as it was in both, and
so is DF. For RND this is said of one and the same draw: the two states agree in the model's draw counter, and so draw the
same byte (R230, decision D14, the design choice of log 1). -/
def Obligations.DisplayAndSoundTimerStayUnread : Prop :=
  ∀ (i : Instr) (s s' t : State), exec i s = .next t →
    (ChangedOnly [.st, .df] s s' → ∃ t', exec i s' = .next t' ∧ ChangedOnly [.st, .df] t t') ∧
    (ChangedOnly [.px] s s' → ∃ t', exec i s' = .next t' ∧ ChangedOnly [.px, .regs] t t' ∧
      ∀ r, (r ≠ 15 ∨ ∀ x y n, i ≠ .drw x y n) → t'.getV r = t.getV r) ∧
    (ChangedOnly [.st, .df, .px] s s' → ∃ t', exec i s' = .next t' ∧ ChangedOnly [.st, .df, .px, .regs] t t' ∧
      (∀ r, (r ≠ 15 ∨ ∀ x y n, i ≠ .drw x y n) → t'.getV r = t.getV r) ∧
      (t'.st = t.st ∨ (t.st = s.st ∧ t'.st = s'.st)) ∧ (t'.df = t.df ∨ (t.df = s.df ∧ t'.df = s'.df)))

/-- R269: the four ways of standing still last for any number of steps: a key wait with all keys up, a jump to itself (1nnn
or Bnnn), an unknown opcode, the latch set. -/
def Obligations.StandingStillLasts : Prop :=
  ∀ (s : State) (k : Nat), (s.WaitsForKey ∨ s.JumpsToItself ∨ s.AtUnknownOpcode ∨ s.Halted) →
    Host.Core.run core k s = .next s

/-- R269: "it has four ways of standing still", and no others: a step leaves the state as it was exactly in those four. -/
def Obligations.OnlyFourWaysOfStandingStill : Prop :=
  ∀ s : State, step s = .next s ↔ s.WaitsForKey ∨ s.JumpsToItself ∨ s.AtUnknownOpcode ∨ s.Halted

/-- R127, R269: a program that has ended stays so: no `Step`, `Tick`, key write or draw-flag clear, in any number and order,
changes anything but the timers, the keys and the draw-flag. What counts as the end is the model's choice (U19, log 35). -/
def Obligations.AnEndedProgramStaysEnded : Prop :=
  ∀ (ops : List Op) (s : Session), s.core.Ended → s.phase ≠ .beforeReset → (∀ op ∈ ops, op.ordinary = true) →
    ∃ t, runOps ops s = .next t ∧ t.core.Ended ∧ (s.core.EndedWell → t.core.EndedWell) ∧
      ChangedOnly [.dt, .st, .key, .df] s.core t.core

/-- R311: while the source's obligations on a program hold, a step completes, raises nothing and leaves the font cells as
they are. That its outcome is then `Ok`, that of a waiting Fx0A too, is R125's value (decision D16, log 16); that nothing is
raised is said by the latch of R256 (decision D15, log 15). -/
def Obligations.KeptPromisesKeepTheMachineRunning : Prop :=
  ∀ s : State, s.withinPromises = true →
    ∃ t, step s = .next t ∧ t.halt = .none ∧ CycleOutcome.ofStep s = .ok ∧
      ∀ a : Word, cellOf a < 80 → t.readMem a = s.readMem a

/-! ## Control transfer -/

/-- R141, R147: JP nnn and JP V0, nnn set pc, write nothing else and never wrap. -/
def Obligations.JumpsSetPc : Prop :=
  ∀ (nnn : Addr12) (s : State),
    (decode (0x1#4 ++ nnn) = .ok (.jp nnn) ∧
      ∃ t, exec (.jp nnn) s = .next t ∧ t.pc.toNat = nnn.toNat ∧ ChangedOnly [.pc] s t) ∧
    (decode (0xB#4 ++ nnn) = .ok (.jpV0 nnn) ∧
      ∃ t, exec (.jpV0 nnn) s = .next t ∧ t.pc.toNat = nnn.toNat + (s.getV 0).toNat ∧ t.pc.toNat ≤ 0x10FE ∧
        ChangedOnly [.pc] s t)

/-- R142: CALL nnn on a stack that is not full pushes pc + 2 into stack[sp], raises sp by one and sets pc. -/
def Obligations.CallPushesTheReturnAddress : Prop :=
  ∀ (nnn : Addr12) (s : State), decode (0x2#4 ++ nnn) = .ok (.call nnn) ∧
    ∀ h : s.sp.val < 16,
      ∃ t, exec (.call nnn) s = .next t ∧ t.getStack ⟨s.sp.val, h⟩ = s.pc + 2 ∧ t.sp.val = s.sp.val + 1 ∧
        t.pc.toNat = nnn.toNat ∧ (∀ k : Fin 16, k.val ≠ s.sp.val → t.getStack k = s.getStack k) ∧
        ChangedOnly [.stack, .sp, .pc] s t

/-- R140: RET on a stack that is not empty lowers sp by one and sets pc to stack[the new sp]; the slot keeps its value. -/
def Obligations.ReturnPopsThePc : Prop :=
  decode 0x00EE = .ok .ret ∧
  ∀ (s : State) (k : Fin 16), s.sp.val = k.val + 1 →
    ∃ t, exec .ret s = .next t ∧ t.sp.val = k.val ∧ t.pc = s.getStack k ∧ ChangedOnly [.sp, .pc] s t

/-- R250, R251: CALL on a full stack and RET on an empty one write nothing but the latch, pc included (decision D15). -/
def Obligations.StackConditionsSetOnlyTheLatch : Prop :=
  (∀ (nnn : Addr12) (s : State), s.sp.val = 16 →
    ∃ t, exec (.call nnn) s = .next t ∧ t.halt = .stackOverflow ∧ ChangedOnly [.halt] s t) ∧
  (∀ s : State, s.sp.val = 0 →
    ∃ t, exec .ret s = .next t ∧ t.halt = .stackUnderflow ∧ ChangedOnly [.halt] s t)

/-- R142, R26: calls nest up to 16 deep and as many returns come back to the instruction after the first call; a call at
depth 16 overflows (decision D15). -/
def Obligations.NestedCallsReturn : Prop :=
  ∀ (targets : List Addr12) (s : State), s.sp.val + targets.length ≤ 16 →
    ∃ t, execAll (targets.map Instr.call) s = .next t ∧ t.sp.val = s.sp.val + targets.length ∧ t.halt = s.halt ∧
      (t.sp.val = 16 → ∀ nnn, ∃ u, exec (.call nnn) t = .next u ∧ u.halt = .stackOverflow) ∧
      ∃ u, execAll (List.replicate targets.length .ret) t = .next u ∧ ChangedOnly [.pc, .stack] s u ∧
        (targets ≠ [] → u.pc = s.pc + 2)

/-- R143, R144, R145, R146: SE skips on equality and SNE on inequality (decision D21), 4 instead of 2. -/
def Obligations.RegisterSkips : Prop :=
  ∀ (x y : Reg) (kk : Byte) (s : State),
    (decode ((0x3#4 ++ regBits x) ++ kk) = .ok (.seImm x kk) ∧ ∃ t, exec (.seImm x kk) s = .next t ∧
      t.pc = (if s.getV x = kk then s.pc + 4 else s.pc + 2) ∧ ChangedOnly [.pc] s t) ∧
    (decode ((0x4#4 ++ regBits x) ++ kk) = .ok (.sneImm x kk) ∧ ∃ t, exec (.sneImm x kk) s = .next t ∧
      t.pc = (if s.getV x = kk then s.pc + 2 else s.pc + 4) ∧ ChangedOnly [.pc] s t) ∧
    (decode (((0x5#4 ++ regBits x) ++ regBits y) ++ 0x0#4) = .ok (.seReg x y) ∧ ∃ t, exec (.seReg x y) s = .next t ∧
      t.pc = (if s.getV x = s.getV y then s.pc + 4 else s.pc + 2) ∧ ChangedOnly [.pc] s t) ∧
    (decode (((0x9#4 ++ regBits x) ++ regBits y) ++ 0x0#4) = .ok (.sneReg x y) ∧ ∃ t, exec (.sneReg x y) s = .next t ∧
      t.pc = (if s.getV x = s.getV y then s.pc + 2 else s.pc + 4) ∧ ChangedOnly [.pc] s t)

/-! ## Load, arithmetic, logic, shift -/

/-- R160, R162: LD Vx, kk and LD Vx, Vy. That 8xy0 is LD is decision D8 (log 9). -/
def Obligations.LoadsSetTheRegister : Prop :=
  ∀ (x y : Reg) (kk : Byte) (s : State),
    (decode ((0x6#4 ++ regBits x) ++ kk) = .ok (.ldImm x kk) ∧ ∃ t, exec (.ldImm x kk) s = .next t ∧
      t.getV x = kk ∧ t.pc = s.pc + 2 ∧ RegsKeptBut [x] s t ∧ ChangedOnly [.pc, .regs] s t) ∧
    (decode (((0x8#4 ++ regBits x) ++ regBits y) ++ 0x0#4) = .ok (.ldReg x y) ∧ ∃ t, exec (.ldReg x y) s = .next t ∧
      t.getV x = s.getV y ∧ t.pc = s.pc + 2 ∧ RegsKeptBut [x] s t ∧ ChangedOnly [.pc, .regs] s t)

/-- R161: ADD Vx, kk wraps and sets no flag. -/
def Obligations.AddImmediateSetsNoFlag : Prop :=
  ∀ (x : Reg) (kk : Byte) (s : State),
    decode ((0x7#4 ++ regBits x) ++ kk) = .ok (.addImm x kk) ∧ ∃ t, exec (.addImm x kk) s = .next t ∧
      (t.getV x).toNat = ((s.getV x).toNat + kk.toNat) % 256 ∧ t.pc = s.pc + 2 ∧ RegsKeptBut [x] s t ∧
      ChangedOnly [.pc, .regs] s t

/-- R163, R164, R165: OR, AND, XOR, bit by bit; VF is left as it was unless it is Vx (U7, log 32). That they are 8xy1, 8xy2
and 8xy3 is decision D8 (log 9). -/
def Obligations.LogicLeavesTheFlag : Prop :=
  ∀ (x y : Reg) (s : State),
    (decode (((0x8#4 ++ regBits x) ++ regBits y) ++ 0x1#4) = .ok (.orReg x y) ∧ ∃ t, exec (.orReg x y) s = .next t ∧
      (∀ b < 8, (t.getV x).getLsbD b = ((s.getV x).getLsbD b || (s.getV y).getLsbD b)) ∧ t.pc = s.pc + 2 ∧
      RegsKeptBut [x] s t ∧ ChangedOnly [.pc, .regs] s t) ∧
    (decode (((0x8#4 ++ regBits x) ++ regBits y) ++ 0x2#4) = .ok (.andReg x y) ∧ ∃ t, exec (.andReg x y) s = .next t ∧
      (∀ b < 8, (t.getV x).getLsbD b = ((s.getV x).getLsbD b && (s.getV y).getLsbD b)) ∧ t.pc = s.pc + 2 ∧
      RegsKeptBut [x] s t ∧ ChangedOnly [.pc, .regs] s t) ∧
    (decode (((0x8#4 ++ regBits x) ++ regBits y) ++ 0x3#4) = .ok (.xorReg x y) ∧ ∃ t, exec (.xorReg x y) s = .next t ∧
      (∀ b < 8, (t.getV x).getLsbD b = ((s.getV x).getLsbD b ^^ (s.getV y).getLsbD b)) ∧ t.pc = s.pc + 2 ∧
      RegsKeptBut [x] s t ∧ ChangedOnly [.pc, .regs] s t)

/-- R166: ADD Vx, Vy leaves the sum mod 256 in Vx and the carry in VF. With x = 15, where Vx is VF, the carry stays and the
sum is lost: decision D7 (log 8). -/
def Obligations.AddSetsCarry : Prop :=
  ∀ (x y : Reg) (s : State),
    decode (((0x8#4 ++ regBits x) ++ regBits y) ++ 0x4#4) = .ok (.addReg x y) ∧ ∃ t, exec (.addReg x y) s = .next t ∧
      (x ≠ 15 → (t.getV x).toNat = ((s.getV x).toNat + (s.getV y).toNat) % 256) ∧
      (t.getV 15).toNat = (if (s.getV x).toNat + (s.getV y).toNat > 255 then 1 else 0) ∧ t.pc = s.pc + 2 ∧
      RegsKeptBut [x, 15] s t ∧ ChangedOnly [.pc, .regs] s t

/-- R167, R169: SUB and SUBN leave the difference mod 256 in Vx and NOT borrow in VF. That 8xy7 is SUBN is decision D8 (log
9); that with x = 15 the flag stays and the difference is lost is decision D7 (log 8). -/
def Obligations.SubtractSetsNotBorrow : Prop :=
  ∀ (x y : Reg) (s : State),
    (decode (((0x8#4 ++ regBits x) ++ regBits y) ++ 0x5#4) = .ok (.subReg x y) ∧ ∃ t, exec (.subReg x y) s = .next t ∧
      (x ≠ 15 → ((t.getV x).toNat : Int) = (((s.getV x).toNat : Int) - (s.getV y).toNat) % 256) ∧
      (t.getV 15).toNat = (if (s.getV x).toNat ≥ (s.getV y).toNat then 1 else 0) ∧ t.pc = s.pc + 2 ∧
      RegsKeptBut [x, 15] s t ∧ ChangedOnly [.pc, .regs] s t) ∧
    (decode (((0x8#4 ++ regBits x) ++ regBits y) ++ 0x7#4) = .ok (.subnReg x y) ∧ ∃ t, exec (.subnReg x y) s = .next t ∧
      (x ≠ 15 → ((t.getV x).toNat : Int) = (((s.getV y).toNat : Int) - (s.getV x).toNat) % 256) ∧
      (t.getV 15).toNat = (if (s.getV y).toNat ≥ (s.getV x).toNat then 1 else 0) ∧ t.pc = s.pc + 2 ∧
      RegsKeptBut [x, 15] s t ∧ ChangedOnly [.pc, .regs] s t)

/-- R168, R170: SHR and SHL shift Vx in place by one whatever y is (decision D6, log 7); VF is the bit shifted out, and with
x = 15 the flag stays (decision D7, log 8). That they are 8xy6 and 8xyE is decision D8 (log 9). -/
def Obligations.ShiftsSetTheBitShiftedOut : Prop :=
  ∀ (x y : Reg) (s : State),
    (decode (((0x8#4 ++ regBits x) ++ regBits y) ++ 0x6#4) = .ok (.shrReg x) ∧ ∃ t, exec (.shrReg x) s = .next t ∧
      (x ≠ 15 → (t.getV x).toNat = (s.getV x).toNat / 2) ∧ (t.getV 15).toNat = (s.getV x).toNat % 2 ∧
      t.pc = s.pc + 2 ∧ RegsKeptBut [x, 15] s t ∧ ChangedOnly [.pc, .regs] s t) ∧
    (decode (((0x8#4 ++ regBits x) ++ regBits y) ++ 0xE#4) = .ok (.shlReg x) ∧ ∃ t, exec (.shlReg x) s = .next t ∧
      (x ≠ 15 → (t.getV x).toNat = 2 * (s.getV x).toNat % 256) ∧ (t.getV 15).toNat = (s.getV x).toNat / 128 ∧
      t.pc = s.pc + 2 ∧ RegsKeptBut [x, 15] s t ∧ ChangedOnly [.pc, .regs] s t)

/-! ## Index register and memory -/

/-- R190, R191: LD I, nnn clears the upper four bits of I; ADD I, Vx is mod 65536 and sets no flag. -/
def Obligations.IndexLoadAndAdd : Prop :=
  ∀ (nnn : Addr12) (x : Reg) (s : State),
    (decode (0xA#4 ++ nnn) = .ok (.ldI nnn) ∧ ∃ t, exec (.ldI nnn) s = .next t ∧ t.i.toNat = nnn.toNat ∧
      t.pc = s.pc + 2 ∧ ChangedOnly [.pc, .index] s t) ∧
    (decode ((0xF#4 ++ regBits x) ++ 0x1E#8) = .ok (.addIVx x) ∧ ∃ t, exec (.addIVx x) s = .next t ∧
      t.i.toNat = (s.i.toNat + (s.getV x).toNat) % 65536 ∧ t.pc = s.pc + 2 ∧ ChangedOnly [.pc, .index] s t)

/-- R192: LD F, Vx sets I to Vx * 5, unmasked (decision D11), the place of glyph Vx for Vx below 16. -/
def Obligations.FontLoadPointsAtTheGlyph : Prop :=
  ∀ (x : Reg) (s : State),
    decode ((0xF#4 ++ regBits x) ++ 0x29#8) = .ok (.ldFVx x) ∧ ∃ t, exec (.ldFVx x) s = .next t ∧
      t.i.toNat = (s.getV x).toNat * 5 ∧ t.pc = s.pc + 2 ∧ ChangedOnly [.pc, .index] s t

/-- R196, R63: the cell of the access at offset k is (I + k) mod 4096 (decision D2), so the cells of one instruction's
accesses, at most 16, are distinct. -/
def Obligations.EffectiveAddressesWrap : Prop :=
  ∀ (s : State) (k : Nat), cellOf (s.ea k) = (s.i.toNat + k) % 4096 ∧
    ∀ j, j < 16 → k < 16 → cellOf (s.ea j) = cellOf (s.ea k) → j = k

/-- R193: LD B, Vx stores hundreds, tens and units at I, I + 1, I + 2 and changes no other byte and no register. -/
def Obligations.BcdStoresDecimalDigits : Prop :=
  ∀ (x : Reg) (s : State),
    decode ((0xF#4 ++ regBits x) ++ 0x33#8) = .ok (.ldBVx x) ∧ ∃ t, exec (.ldBVx x) s = .next t ∧
      (t.readMem (s.ea 0)).toNat = (s.getV x).toNat / 100 ∧
      (t.readMem (s.ea 1)).toNat = (s.getV x).toNat / 10 % 10 ∧ (t.readMem (s.ea 2)).toNat = (s.getV x).toNat % 10 ∧
      (∀ a, (∀ k < 3, cellOf a ≠ cellOf (s.ea k)) → t.readMem a = s.readMem a) ∧ t.pc = s.pc + 2 ∧
      ChangedOnly [.pc, .mem] s t

/-- R194: LD [I], Vx stores V0..Vx at I..I + x and changes no other byte, no register and not I (decision D12). -/
def Obligations.StoreRegistersToMemory : Prop :=
  ∀ (x : Reg) (s : State),
    decode ((0xF#4 ++ regBits x) ++ 0x55#8) = .ok (.storeRegs x) ∧ ∃ t, exec (.storeRegs x) s = .next t ∧
      (∀ r : Reg, r ≤ x → t.readMem (s.ea r.val) = s.getV r) ∧
      (∀ a, (∀ k ≤ x.val, cellOf a ≠ cellOf (s.ea k)) → t.readMem a = s.readMem a) ∧ t.pc = s.pc + 2 ∧
      ChangedOnly [.pc, .mem] s t

/-- R195: LD Vx, [I] loads V0..Vx from I..I + x and changes no other register, no memory and not I (decision D12). -/
def Obligations.LoadRegistersFromMemory : Prop :=
  ∀ (x : Reg) (s : State),
    decode ((0xF#4 ++ regBits x) ++ 0x65#8) = .ok (.loadRegs x) ∧ ∃ t, exec (.loadRegs x) s = .next t ∧
      (∀ r : Reg, r ≤ x → t.getV r = s.readMem (s.ea r.val)) ∧ (∀ r : Reg, x < r → t.getV r = s.getV r) ∧
      t.pc = s.pc + 2 ∧ ChangedOnly [.pc, .regs] s t

/-- R194, R195: registers stored by Fx55 come back by Fx65 from any state with that memory and that I (decisions D2, D12). -/
def Obligations.StoredRegistersLoadBack : Prop :=
  ∀ (x : Reg) (s t s' : State), exec (.storeRegs x) s = .next t → Part.same t s' .mem → s'.i = s.i →
    ∃ u, exec (.loadRegs x) s' = .next u ∧ ∀ r : Reg, r ≤ x → u.getV r = s.getV r

/-- R74: a store by the instruction at pc into the cells at pc + 2 and pc + 3 is what the next fetch reads, by Fx55 and by
Fx33, wherever I points: each of the two bytes of the word is the register or the digit stored there, or, where nothing was
stored, the byte that was there (decisions D1, D2). -/
def Obligations.StoresAreFetchedNext : Prop :=
  ∀ (x : Reg) (s : State),
    (∃ t hi lo, exec (.storeRegs x) s = .next t ∧ t.pc = s.pc + 2 ∧ t.fetch = hi ++ lo ∧
      (∀ r : Reg, r ≤ x → cellOf (s.ea r.val) = cellOf (s.pc + 2) → hi = s.getV r) ∧
      (∀ r : Reg, r ≤ x → cellOf (s.ea r.val) = cellOf (s.pc + 3) → lo = s.getV r) ∧
      ((∀ r : Reg, r ≤ x → cellOf (s.ea r.val) ≠ cellOf (s.pc + 2)) → hi = s.readMem (s.pc + 2)) ∧
      ((∀ r : Reg, r ≤ x → cellOf (s.ea r.val) ≠ cellOf (s.pc + 3)) → lo = s.readMem (s.pc + 3))) ∧
    (∃ t hi lo, exec (.ldBVx x) s = .next t ∧ t.pc = s.pc + 2 ∧ t.fetch = hi ++ lo ∧
      (∀ k < 3, cellOf (s.ea k) = cellOf (s.pc + 2) → hi.toNat = decimalDigit k (s.getV x).toNat) ∧
      (∀ k < 3, cellOf (s.ea k) = cellOf (s.pc + 3) → lo.toNat = decimalDigit k (s.getV x).toNat) ∧
      ((∀ k < 3, cellOf (s.ea k) ≠ cellOf (s.pc + 2)) → hi = s.readMem (s.pc + 2)) ∧
      ((∀ k < 3, cellOf (s.ea k) ≠ cellOf (s.pc + 3)) → lo = s.readMem (s.pc + 3)))

/-! ## Display -/

/-- R210: CLS clears every pixel and raises DF, whether or not a pixel was set. -/
def Obligations.ClearScreen : Prop :=
  decode 0x00E0 = .ok .cls ∧
  ∀ s : State, ∃ t, exec .cls s = .next t ∧ (∀ x y, Display.get t.px x y = false) ∧ t.df = true ∧ t.pc = s.pc + 2 ∧
    ChangedOnly [.pc, .px, .df] s t

/-- R211, R212: DRW toggles exactly the pixels under the sprite's 1 bits, wrapping on both axes, sets VF to 1 exactly when a
set pixel was cleared and else to 0, and raises DF. Coordinates are the old Vx and Vy (decision D17); bit 7 is the left
column (decision D19). -/
def Obligations.DrawTogglesTheCoveredPixels : Prop :=
  ∀ (x y : Reg) (n : Fin 16) (s : State),
    decode (((0xD#4 ++ regBits x) ++ regBits y) ++ regBits n) = .ok (.drw x y n) ∧
    ∃ t, exec (.drw x y n) s = .next t ∧
      (∀ X Y, s.spriteCovers (s.getV x) (s.getV y) n.val X Y → Display.get t.px X Y = !Display.get s.px X Y) ∧
      (∀ X Y, ¬ s.spriteCovers (s.getV x) (s.getV y) n.val X Y → Display.get t.px X Y = Display.get s.px X Y) ∧
      (t.getV 15 = 1 ∨ t.getV 15 = 0) ∧
      (t.getV 15 = 1 ↔ ∃ X Y, s.spriteCovers (s.getV x) (s.getV y) n.val X Y ∧ Display.get s.px X Y = true) ∧
      t.df = true ∧ t.pc = s.pc + 2 ∧ RegsKeptBut [15] s t ∧ ChangedOnly [.pc, .regs, .px, .df] s t

/-- R213: a DRW with the same coordinates, the same n and the same n sprite cells, in any later state with the pixels the
first one left and from whichever registers, restores every pixel; its VF is 1 exactly when the sprite has a 1 bit on a pixel
that was set after the first draw, which on a display that was clear before it is when the sprite has a 1 bit at all. The
state right after the first draw is such a state for x and y other than 15; with x or y = 15 the first draw's VF has become a
coordinate, which are read from the old Vx and Vy (decision D17, log 17). -/
def Obligations.DrawingTwiceRestoresTheDisplay : Prop :=
  ∀ (x y : Reg) (n : Fin 16) (s t : State), exec (.drw x y n) s = .next t →
    (∀ (x' y' : Reg) (s' : State), Part.same t s' .px → s'.getV x' = s.getV x → s'.getV y' = s.getV y →
      (∀ r < n.val, s'.readMem (s'.ea r) = s.readMem (s.ea r)) →
      ∃ u, exec (.drw x' y' n) s' = .next u ∧ Part.same s u .px ∧
        (u.getV 15 = 1 ↔ ∃ X Y, s.spriteCovers (s.getV x) (s.getV y) n.val X Y ∧ Display.get t.px X Y = true) ∧
        ((∀ X Y, Display.get s.px X Y = false) →
          (u.getV 15 = 1 ↔ ∃ X Y, s.spriteCovers (s.getV x) (s.getV y) n.val X Y))) ∧
    (x ≠ 15 → y ≠ 15 → ∃ u, exec (.drw x y n) t = .next u ∧ Part.same s u .px ∧
      (u.getV 15 = 1 ↔ ∃ X Y, s.spriteCovers (s.getV x) (s.getV y) n.val X Y ∧ Display.get t.px X Y = true))

/-! ## Keypad, timers, random -/

/-- R230: RND leaves the drawn byte and kk in Vx, so every bit that is 0 in kk is 0; the draw is a free value (decision D14,
log 1), and each execution takes the next one. -/
def Obligations.RandomByteIsMasked : Prop :=
  ∀ (x : Reg) (kk : Byte) (s : State),
    decode ((0xC#4 ++ regBits x) ++ kk) = .ok (.rnd x kk) ∧ ∃ t, exec (.rnd x kk) s = .next t ∧
      (∀ b < 8, (t.getV x).getLsbD b = ((Config.rndByte s.draws).getLsbD b && kk.getLsbD b)) ∧
      (∀ b, kk.getLsbD b = false → (t.getV x).getLsbD b = false) ∧ t.draws = s.draws + 1 ∧ t.pc = s.pc + 2 ∧
      RegsKeptBut [x] s t ∧ ChangedOnly [.pc, .regs, .draws] s t

/-- R231, R232: SKP skips when Key[Vx mod 16] is pressed and SKNP when it is not (mod 16 is decision D10). -/
def Obligations.KeySkips : Prop :=
  ∀ (x : Reg) (s : State) (k : Key), k.val = (s.getV x).toNat % 16 →
    (decode ((0xE#4 ++ regBits x) ++ 0x9E#8) = .ok (.skp x) ∧ ∃ t, exec (.skp x) s = .next t ∧
      t.pc = (if s.getKey k = true then s.pc + 4 else s.pc + 2) ∧ ChangedOnly [.pc] s t) ∧
    (decode ((0xE#4 ++ regBits x) ++ 0xA1#8) = .ok (.sknp x) ∧ ∃ t, exec (.sknp x) s = .next t ∧
      t.pc = (if s.getKey k = true then s.pc + 2 else s.pc + 4) ∧ ChangedOnly [.pc] s t)

/-- R234: LD Vx, K gives the lowest pressed key and advances; with no key pressed nothing changes. The latch is only read
(decision D13). -/
def Obligations.KeyWaitTakesTheLowestKey : Prop :=
  ∀ (x : Reg) (s : State),
    decode ((0xF#4 ++ regBits x) ++ 0x0A#8) = .ok (.ldVxK x) ∧
    (∀ k : Key, s.getKey k = true → (∀ j : Key, j < k → s.getKey j = false) →
      ∃ t, exec (.ldVxK x) s = .next t ∧ (t.getV x).toNat = k.val ∧ t.pc = s.pc + 2 ∧ RegsKeptBut [x] s t ∧
        ChangedOnly [.pc, .regs] s t) ∧
    ((∀ k : Key, s.getKey k = false) → exec (.ldVxK x) s = .next s)

/-- R233, R235, R236: the timer register moves. No step, that of LD ST among them, emits the tone (R126). -/
def Obligations.TimerRegisterMoves : Prop :=
  ∀ (x : Reg) (s : State),
    (decode ((0xF#4 ++ regBits x) ++ 0x07#8) = .ok (.ldVxDT x) ∧ ∃ t, exec (.ldVxDT x) s = .next t ∧
      t.getV x = s.dt ∧ t.pc = s.pc + 2 ∧ RegsKeptBut [x] s t ∧ ChangedOnly [.pc, .regs] s t) ∧
    (decode ((0xF#4 ++ regBits x) ++ 0x15#8) = .ok (.ldDTVx x) ∧ ∃ t, exec (.ldDTVx x) s = .next t ∧
      t.dt = s.getV x ∧ t.pc = s.pc + 2 ∧ ChangedOnly [.pc, .dt] s t) ∧
    (decode ((0xF#4 ++ regBits x) ++ 0x18#8) = .ok (.ldSTVx x) ∧ ∃ t, exec (.ldSTVx x) s = .next t ∧
      t.st = s.getV x ∧ t.pc = s.pc + 2 ∧ ChangedOnly [.pc, .st] s t) ∧
    Event.tone ∉ Op.emits s .step

/-! ## The other operations -/

/-- R262: `Tick` takes each timer one towards 0 and stops there, emits the tone exactly when ST was 1, and touches nothing
else; with the latch set it does nothing (decision D15, log 15). That it acts before any `Reset` too is the model's choice
(log 18). -/
def Obligations.TickCountsDown : Prop :=
  ∀ s : Session, ∃ t, Op.perform s .tick = .next ⟨s.phase, t⟩ ∧ ChangedOnly [.dt, .st] s.core t ∧
    (s.core.halt = .none → t.dt.toNat = s.core.dt.toNat - 1 ∧ t.st.toNat = s.core.st.toNat - 1 ∧
      Op.emits s.core .tick = if s.core.st.toNat = 1 then [.tone] else []) ∧
    (s.core.halt ≠ .none → t = s.core ∧ Op.emits s.core .tick = [])

/-- R263: after k ticks and nothing else each timer has fallen by k, to 0 at the least, and exactly one tone has been emitted
if ST was loaded and has run down, else none. -/
def Obligations.TimersRunDown : Prop :=
  ∀ (s : State) (k : Nat), s.halt = .none →
    (s.ticks k).dt.toNat = s.dt.toNat - k ∧ (s.ticks k).st.toNat = s.st.toNat - k ∧
    s.tones k = (if 0 < s.st.toNat ∧ s.st.toNat ≤ k then 1 else 0) ∧ ChangedOnly [.dt, .st] s (s.ticks k)

/-- R303, R304: between a `Reset` and the first `Step`, `Load` copies the image to 0x200 on and touches nothing else, and an
image of more than 3584 bytes fails with OutOfSpace (R253, decision D18); at any other time `Load` is refused, whatever the
image (R303, U16). That a second `Load` in that span acts like the first, on memory as the first left it, is the model's
choice (log 18). -/
def Obligations.LoadCopiesTheImage : Prop :=
  ∀ (image : List Byte) (s : Session),
    (s.phase ≠ .ready → Op.perform s (.load image) = .refused .loadOutsideLaunch) ∧
    (s.phase = .ready → image.length > 3584 → Op.perform s (.load image) = .fault .outOfSpace) ∧
    (s.phase = .ready → image.length ≤ 3584 →
      ∃ t, Op.perform s (.load image) = .next ⟨.ready, t⟩ ∧
        (∀ (j : Nat) (h : j < image.length), t.readMem (BitVec.ofNat 16 (0x200 + j)) = image[j]) ∧
        (∀ a, cellOf a < 0x200 ∨ 0x200 + image.length ≤ cellOf a → t.readMem a = s.core.readMem a) ∧
        ChangedOnly [.mem] s.core t)

/-- R303: the order of start-up. Without a `Reset` neither `Step` nor `Load` has a meaning (U16); a `Reset` opens the time for
`Load`, whenever it comes, and the first `Step` after it ends that time; the other operations leave it as it is. That those
act before any `Reset` too is the model's choice (log 18). -/
def Obligations.StartUpFollowsItsOrder : Prop :=
  ∀ s : Session,
    (s.phase = .beforeReset → Op.perform s .step = .refused .stepBeforeReset ∧
      ∀ image, Op.perform s (.load image) = .refused .loadOutsideLaunch) ∧
    (s.phase ≠ .beforeReset → ∃ t, step s.core = .next t ∧ Op.perform s .step = .next ⟨.running, t⟩ ∧
      ∀ image, Op.perform ⟨.running, t⟩ (.load image) = .refused .loadOutsideLaunch) ∧
    (∃ t, Op.perform s .reset = .next ⟨.ready, t⟩ ∧
      ∀ image : List Byte, image.length ≤ 3584 → ∃ u, Op.perform ⟨.ready, t⟩ (.load image) = .next ⟨.ready, u⟩) ∧
    (∃ t, Op.perform s .tick = .next ⟨s.phase, t⟩) ∧ (∃ t, Op.perform s .drawFlagClear = .next ⟨s.phase, t⟩) ∧
    ∀ k down, ∃ t, Op.perform s (.keyWrite k down) = .next ⟨s.phase, t⟩

/-- R271: after a `Reset`, every infinite sequence of `Step`, `Tick`, key writes and draw-flag clears, in any order and
proportion, is a behaviour, and so is each of its beginnings (decision D22). -/
def Obligations.EverySequenceIsABehaviour : Prop :=
  ∀ (ops : Nat → Op) (s : Session), s.phase ≠ .beforeReset → (∀ k, (ops k).ordinary = true) →
    ∃ ss : Nat → Session, ss 0 = s ∧ IsRun ops ss ∧ ∀ k, runOps ((List.range k).map ops) s = .next (ss k)

/-- R264, R265, R270: a key write changes one key and the draw-flag clear changes DF alone. The operations' names are
decision D23 (log 31). That they act before any `Reset` too is the model's choice (log 18). -/
def Obligations.CollaboratorsTouchOnlyTheirOwn : Prop :=
  ∀ (s : Session) (k : Key) (down : Bool),
    (∃ t, Op.perform s (.keyWrite k down) = .next ⟨s.phase, t⟩ ∧ t.getKey k = down ∧
      (∀ j, j ≠ k → t.getKey j = s.core.getKey j) ∧ ChangedOnly [.key] s.core t) ∧
    (∃ t, Op.perform s .drawFlagClear = .next ⟨s.phase, t⟩ ∧ t.df = false ∧ ChangedOnly [.df] s.core t)
end

