-- ==== Sys2Proof/Laws/State.lean ====
section
/-!
SUPPORT. What each named update does to each field and to each accessor, one lemma each, true by definition. No later
proof unfolds a record update.
-/

namespace Sys2Proof.Machine

variable (s : State)

/-! ## writeMem -/

@[simp] theorem State.writeMem_mem (a : Word) (w : Byte) : (s.writeMem a w).mem = Memory.write s.font s.mem (cellOf a) w := rfl
@[simp] theorem State.writeMem_v (a : Word) (w : Byte) : (s.writeMem a w).v = s.v := rfl
@[simp] theorem State.writeMem_pc (a : Word) (w : Byte) : (s.writeMem a w).pc = s.pc := rfl
@[simp] theorem State.writeMem_i (a : Word) (w : Byte) : (s.writeMem a w).i = s.i := rfl
@[simp] theorem State.writeMem_stack (a : Word) (w : Byte) : (s.writeMem a w).stack = s.stack := rfl
@[simp] theorem State.writeMem_sp (a : Word) (w : Byte) : (s.writeMem a w).sp = s.sp := rfl
@[simp] theorem State.writeMem_dt (a : Word) (w : Byte) : (s.writeMem a w).dt = s.dt := rfl
@[simp] theorem State.writeMem_st (a : Word) (w : Byte) : (s.writeMem a w).st = s.st := rfl
@[simp] theorem State.writeMem_key (a : Word) (w : Byte) : (s.writeMem a w).key = s.key := rfl
@[simp] theorem State.writeMem_px (a : Word) (w : Byte) : (s.writeMem a w).px = s.px := rfl
@[simp] theorem State.writeMem_df (a : Word) (w : Byte) : (s.writeMem a w).df = s.df := rfl
@[simp] theorem State.writeMem_halt (a : Word) (w : Byte) : (s.writeMem a w).halt = s.halt := rfl
@[simp] theorem State.writeMem_draws (a : Word) (w : Byte) : (s.writeMem a w).draws = s.draws := rfl
@[simp] theorem State.writeMem_font (a : Word) (w : Byte) : (s.writeMem a w).font = s.font := rfl
@[simp] theorem State.getV_writeMem (a : Word) (w : Byte) (q : Reg) : (s.writeMem a w).getV q = s.getV q := rfl
@[simp] theorem State.getKey_writeMem (a : Word) (w : Byte) (q : Reg) : (s.writeMem a w).getKey q = s.getKey q := rfl
@[simp] theorem State.getStack_writeMem (a : Word) (w : Byte) (q : Fin 16) : (s.writeMem a w).getStack q = s.getStack q := rfl
@[simp] theorem State.ea_writeMem (a : Word) (w : Byte) (m : Nat) : (s.writeMem a w).ea m = s.ea m := rfl

/-! ## setV -/

@[simp] theorem State.setV_mem (r : Reg) (b : Byte) : (s.setV r b).mem = s.mem := rfl
@[simp] theorem State.setV_v (r : Reg) (b : Byte) : (s.setV r b).v = s.v.set r b := rfl
@[simp] theorem State.setV_pc (r : Reg) (b : Byte) : (s.setV r b).pc = s.pc := rfl
@[simp] theorem State.setV_i (r : Reg) (b : Byte) : (s.setV r b).i = s.i := rfl
@[simp] theorem State.setV_stack (r : Reg) (b : Byte) : (s.setV r b).stack = s.stack := rfl
@[simp] theorem State.setV_sp (r : Reg) (b : Byte) : (s.setV r b).sp = s.sp := rfl
@[simp] theorem State.setV_dt (r : Reg) (b : Byte) : (s.setV r b).dt = s.dt := rfl
@[simp] theorem State.setV_st (r : Reg) (b : Byte) : (s.setV r b).st = s.st := rfl
@[simp] theorem State.setV_key (r : Reg) (b : Byte) : (s.setV r b).key = s.key := rfl
@[simp] theorem State.setV_px (r : Reg) (b : Byte) : (s.setV r b).px = s.px := rfl
@[simp] theorem State.setV_df (r : Reg) (b : Byte) : (s.setV r b).df = s.df := rfl
@[simp] theorem State.setV_halt (r : Reg) (b : Byte) : (s.setV r b).halt = s.halt := rfl
@[simp] theorem State.setV_draws (r : Reg) (b : Byte) : (s.setV r b).draws = s.draws := rfl
@[simp] theorem State.setV_font (r : Reg) (b : Byte) : (s.setV r b).font = s.font := rfl
@[simp] theorem State.readMem_setV (r : Reg) (b : Byte) (addr : Word) : (s.setV r b).readMem addr = s.readMem addr := rfl
@[simp] theorem State.getKey_setV (r : Reg) (b : Byte) (q : Reg) : (s.setV r b).getKey q = s.getKey q := rfl
@[simp] theorem State.getStack_setV (r : Reg) (b : Byte) (q : Fin 16) : (s.setV r b).getStack q = s.getStack q := rfl
@[simp] theorem State.ea_setV (r : Reg) (b : Byte) (m : Nat) : (s.setV r b).ea m = s.ea m := rfl

/-! ## setPc -/

@[simp] theorem State.setPc_mem (p : Word) : (s.setPc p).mem = s.mem := rfl
@[simp] theorem State.setPc_v (p : Word) : (s.setPc p).v = s.v := rfl
@[simp] theorem State.setPc_pc (p : Word) : (s.setPc p).pc = p := rfl
@[simp] theorem State.setPc_i (p : Word) : (s.setPc p).i = s.i := rfl
@[simp] theorem State.setPc_stack (p : Word) : (s.setPc p).stack = s.stack := rfl
@[simp] theorem State.setPc_sp (p : Word) : (s.setPc p).sp = s.sp := rfl
@[simp] theorem State.setPc_dt (p : Word) : (s.setPc p).dt = s.dt := rfl
@[simp] theorem State.setPc_st (p : Word) : (s.setPc p).st = s.st := rfl
@[simp] theorem State.setPc_key (p : Word) : (s.setPc p).key = s.key := rfl
@[simp] theorem State.setPc_px (p : Word) : (s.setPc p).px = s.px := rfl
@[simp] theorem State.setPc_df (p : Word) : (s.setPc p).df = s.df := rfl
@[simp] theorem State.setPc_halt (p : Word) : (s.setPc p).halt = s.halt := rfl
@[simp] theorem State.setPc_draws (p : Word) : (s.setPc p).draws = s.draws := rfl
@[simp] theorem State.setPc_font (p : Word) : (s.setPc p).font = s.font := rfl
@[simp] theorem State.readMem_setPc (p : Word) (addr : Word) : (s.setPc p).readMem addr = s.readMem addr := rfl
@[simp] theorem State.getV_setPc (p : Word) (q : Reg) : (s.setPc p).getV q = s.getV q := rfl
@[simp] theorem State.getKey_setPc (p : Word) (q : Reg) : (s.setPc p).getKey q = s.getKey q := rfl
@[simp] theorem State.getStack_setPc (p : Word) (q : Fin 16) : (s.setPc p).getStack q = s.getStack q := rfl
@[simp] theorem State.ea_setPc (p : Word) (m : Nat) : (s.setPc p).ea m = s.ea m := rfl

/-! ## setI -/

@[simp] theorem State.setI_mem (w : Word) : (s.setI w).mem = s.mem := rfl
@[simp] theorem State.setI_v (w : Word) : (s.setI w).v = s.v := rfl
@[simp] theorem State.setI_pc (w : Word) : (s.setI w).pc = s.pc := rfl
@[simp] theorem State.setI_i (w : Word) : (s.setI w).i = w := rfl
@[simp] theorem State.setI_stack (w : Word) : (s.setI w).stack = s.stack := rfl
@[simp] theorem State.setI_sp (w : Word) : (s.setI w).sp = s.sp := rfl
@[simp] theorem State.setI_dt (w : Word) : (s.setI w).dt = s.dt := rfl
@[simp] theorem State.setI_st (w : Word) : (s.setI w).st = s.st := rfl
@[simp] theorem State.setI_key (w : Word) : (s.setI w).key = s.key := rfl
@[simp] theorem State.setI_px (w : Word) : (s.setI w).px = s.px := rfl
@[simp] theorem State.setI_df (w : Word) : (s.setI w).df = s.df := rfl
@[simp] theorem State.setI_halt (w : Word) : (s.setI w).halt = s.halt := rfl
@[simp] theorem State.setI_draws (w : Word) : (s.setI w).draws = s.draws := rfl
@[simp] theorem State.setI_font (w : Word) : (s.setI w).font = s.font := rfl
@[simp] theorem State.readMem_setI (w : Word) (addr : Word) : (s.setI w).readMem addr = s.readMem addr := rfl
@[simp] theorem State.getV_setI (w : Word) (q : Reg) : (s.setI w).getV q = s.getV q := rfl
@[simp] theorem State.getKey_setI (w : Word) (q : Reg) : (s.setI w).getKey q = s.getKey q := rfl
@[simp] theorem State.getStack_setI (w : Word) (q : Fin 16) : (s.setI w).getStack q = s.getStack q := rfl

/-! ## setDT -/

@[simp] theorem State.setDT_mem (b : Byte) : (s.setDT b).mem = s.mem := rfl
@[simp] theorem State.setDT_v (b : Byte) : (s.setDT b).v = s.v := rfl
@[simp] theorem State.setDT_pc (b : Byte) : (s.setDT b).pc = s.pc := rfl
@[simp] theorem State.setDT_i (b : Byte) : (s.setDT b).i = s.i := rfl
@[simp] theorem State.setDT_stack (b : Byte) : (s.setDT b).stack = s.stack := rfl
@[simp] theorem State.setDT_sp (b : Byte) : (s.setDT b).sp = s.sp := rfl
@[simp] theorem State.setDT_dt (b : Byte) : (s.setDT b).dt = b := rfl
@[simp] theorem State.setDT_st (b : Byte) : (s.setDT b).st = s.st := rfl
@[simp] theorem State.setDT_key (b : Byte) : (s.setDT b).key = s.key := rfl
@[simp] theorem State.setDT_px (b : Byte) : (s.setDT b).px = s.px := rfl
@[simp] theorem State.setDT_df (b : Byte) : (s.setDT b).df = s.df := rfl
@[simp] theorem State.setDT_halt (b : Byte) : (s.setDT b).halt = s.halt := rfl
@[simp] theorem State.setDT_draws (b : Byte) : (s.setDT b).draws = s.draws := rfl
@[simp] theorem State.setDT_font (b : Byte) : (s.setDT b).font = s.font := rfl
@[simp] theorem State.readMem_setDT (b : Byte) (addr : Word) : (s.setDT b).readMem addr = s.readMem addr := rfl
@[simp] theorem State.getV_setDT (b : Byte) (q : Reg) : (s.setDT b).getV q = s.getV q := rfl
@[simp] theorem State.getKey_setDT (b : Byte) (q : Reg) : (s.setDT b).getKey q = s.getKey q := rfl
@[simp] theorem State.getStack_setDT (b : Byte) (q : Fin 16) : (s.setDT b).getStack q = s.getStack q := rfl
@[simp] theorem State.ea_setDT (b : Byte) (m : Nat) : (s.setDT b).ea m = s.ea m := rfl

/-! ## setST -/

@[simp] theorem State.setST_mem (b : Byte) : (s.setST b).mem = s.mem := rfl
@[simp] theorem State.setST_v (b : Byte) : (s.setST b).v = s.v := rfl
@[simp] theorem State.setST_pc (b : Byte) : (s.setST b).pc = s.pc := rfl
@[simp] theorem State.setST_i (b : Byte) : (s.setST b).i = s.i := rfl
@[simp] theorem State.setST_stack (b : Byte) : (s.setST b).stack = s.stack := rfl
@[simp] theorem State.setST_sp (b : Byte) : (s.setST b).sp = s.sp := rfl
@[simp] theorem State.setST_dt (b : Byte) : (s.setST b).dt = s.dt := rfl
@[simp] theorem State.setST_st (b : Byte) : (s.setST b).st = b := rfl
@[simp] theorem State.setST_key (b : Byte) : (s.setST b).key = s.key := rfl
@[simp] theorem State.setST_px (b : Byte) : (s.setST b).px = s.px := rfl
@[simp] theorem State.setST_df (b : Byte) : (s.setST b).df = s.df := rfl
@[simp] theorem State.setST_halt (b : Byte) : (s.setST b).halt = s.halt := rfl
@[simp] theorem State.setST_draws (b : Byte) : (s.setST b).draws = s.draws := rfl
@[simp] theorem State.setST_font (b : Byte) : (s.setST b).font = s.font := rfl
@[simp] theorem State.readMem_setST (b : Byte) (addr : Word) : (s.setST b).readMem addr = s.readMem addr := rfl
@[simp] theorem State.getV_setST (b : Byte) (q : Reg) : (s.setST b).getV q = s.getV q := rfl
@[simp] theorem State.getKey_setST (b : Byte) (q : Reg) : (s.setST b).getKey q = s.getKey q := rfl
@[simp] theorem State.getStack_setST (b : Byte) (q : Fin 16) : (s.setST b).getStack q = s.getStack q := rfl
@[simp] theorem State.ea_setST (b : Byte) (m : Nat) : (s.setST b).ea m = s.ea m := rfl

/-! ## setKey -/

@[simp] theorem State.setKey_mem (k : Key) (c : Bool) : (s.setKey k c).mem = s.mem := rfl
@[simp] theorem State.setKey_v (k : Key) (c : Bool) : (s.setKey k c).v = s.v := rfl
@[simp] theorem State.setKey_pc (k : Key) (c : Bool) : (s.setKey k c).pc = s.pc := rfl
@[simp] theorem State.setKey_i (k : Key) (c : Bool) : (s.setKey k c).i = s.i := rfl
@[simp] theorem State.setKey_stack (k : Key) (c : Bool) : (s.setKey k c).stack = s.stack := rfl
@[simp] theorem State.setKey_sp (k : Key) (c : Bool) : (s.setKey k c).sp = s.sp := rfl
@[simp] theorem State.setKey_dt (k : Key) (c : Bool) : (s.setKey k c).dt = s.dt := rfl
@[simp] theorem State.setKey_st (k : Key) (c : Bool) : (s.setKey k c).st = s.st := rfl
@[simp] theorem State.setKey_key (k : Key) (c : Bool) : (s.setKey k c).key = s.key.set k c := rfl
@[simp] theorem State.setKey_px (k : Key) (c : Bool) : (s.setKey k c).px = s.px := rfl
@[simp] theorem State.setKey_df (k : Key) (c : Bool) : (s.setKey k c).df = s.df := rfl
@[simp] theorem State.setKey_halt (k : Key) (c : Bool) : (s.setKey k c).halt = s.halt := rfl
@[simp] theorem State.setKey_draws (k : Key) (c : Bool) : (s.setKey k c).draws = s.draws := rfl
@[simp] theorem State.setKey_font (k : Key) (c : Bool) : (s.setKey k c).font = s.font := rfl
@[simp] theorem State.readMem_setKey (k : Key) (c : Bool) (addr : Word) : (s.setKey k c).readMem addr = s.readMem addr := rfl
@[simp] theorem State.getV_setKey (k : Key) (c : Bool) (q : Reg) : (s.setKey k c).getV q = s.getV q := rfl
@[simp] theorem State.getStack_setKey (k : Key) (c : Bool) (q : Fin 16) : (s.setKey k c).getStack q = s.getStack q := rfl
@[simp] theorem State.ea_setKey (k : Key) (c : Bool) (m : Nat) : (s.setKey k c).ea m = s.ea m := rfl

/-! ## setPx -/

@[simp] theorem State.setPx_mem (d : Display) : (s.setPx d).mem = s.mem := rfl
@[simp] theorem State.setPx_v (d : Display) : (s.setPx d).v = s.v := rfl
@[simp] theorem State.setPx_pc (d : Display) : (s.setPx d).pc = s.pc := rfl
@[simp] theorem State.setPx_i (d : Display) : (s.setPx d).i = s.i := rfl
@[simp] theorem State.setPx_stack (d : Display) : (s.setPx d).stack = s.stack := rfl
@[simp] theorem State.setPx_sp (d : Display) : (s.setPx d).sp = s.sp := rfl
@[simp] theorem State.setPx_dt (d : Display) : (s.setPx d).dt = s.dt := rfl
@[simp] theorem State.setPx_st (d : Display) : (s.setPx d).st = s.st := rfl
@[simp] theorem State.setPx_key (d : Display) : (s.setPx d).key = s.key := rfl
@[simp] theorem State.setPx_px (d : Display) : (s.setPx d).px = d := rfl
@[simp] theorem State.setPx_df (d : Display) : (s.setPx d).df = s.df := rfl
@[simp] theorem State.setPx_halt (d : Display) : (s.setPx d).halt = s.halt := rfl
@[simp] theorem State.setPx_draws (d : Display) : (s.setPx d).draws = s.draws := rfl
@[simp] theorem State.setPx_font (d : Display) : (s.setPx d).font = s.font := rfl
@[simp] theorem State.readMem_setPx (d : Display) (addr : Word) : (s.setPx d).readMem addr = s.readMem addr := rfl
@[simp] theorem State.getV_setPx (d : Display) (q : Reg) : (s.setPx d).getV q = s.getV q := rfl
@[simp] theorem State.getKey_setPx (d : Display) (q : Reg) : (s.setPx d).getKey q = s.getKey q := rfl
@[simp] theorem State.getStack_setPx (d : Display) (q : Fin 16) : (s.setPx d).getStack q = s.getStack q := rfl
@[simp] theorem State.ea_setPx (d : Display) (m : Nat) : (s.setPx d).ea m = s.ea m := rfl

/-! ## setDF -/

@[simp] theorem State.setDF_mem (c : Bool) : (s.setDF c).mem = s.mem := rfl
@[simp] theorem State.setDF_v (c : Bool) : (s.setDF c).v = s.v := rfl
@[simp] theorem State.setDF_pc (c : Bool) : (s.setDF c).pc = s.pc := rfl
@[simp] theorem State.setDF_i (c : Bool) : (s.setDF c).i = s.i := rfl
@[simp] theorem State.setDF_stack (c : Bool) : (s.setDF c).stack = s.stack := rfl
@[simp] theorem State.setDF_sp (c : Bool) : (s.setDF c).sp = s.sp := rfl
@[simp] theorem State.setDF_dt (c : Bool) : (s.setDF c).dt = s.dt := rfl
@[simp] theorem State.setDF_st (c : Bool) : (s.setDF c).st = s.st := rfl
@[simp] theorem State.setDF_key (c : Bool) : (s.setDF c).key = s.key := rfl
@[simp] theorem State.setDF_px (c : Bool) : (s.setDF c).px = s.px := rfl
@[simp] theorem State.setDF_df (c : Bool) : (s.setDF c).df = c := rfl
@[simp] theorem State.setDF_halt (c : Bool) : (s.setDF c).halt = s.halt := rfl
@[simp] theorem State.setDF_draws (c : Bool) : (s.setDF c).draws = s.draws := rfl
@[simp] theorem State.setDF_font (c : Bool) : (s.setDF c).font = s.font := rfl
@[simp] theorem State.readMem_setDF (c : Bool) (addr : Word) : (s.setDF c).readMem addr = s.readMem addr := rfl
@[simp] theorem State.getV_setDF (c : Bool) (q : Reg) : (s.setDF c).getV q = s.getV q := rfl
@[simp] theorem State.getKey_setDF (c : Bool) (q : Reg) : (s.setDF c).getKey q = s.getKey q := rfl
@[simp] theorem State.getStack_setDF (c : Bool) (q : Fin 16) : (s.setDF c).getStack q = s.getStack q := rfl
@[simp] theorem State.ea_setDF (c : Bool) (m : Nat) : (s.setDF c).ea m = s.ea m := rfl

/-! ## setHalt -/

@[simp] theorem State.setHalt_mem (h : Halt) : (s.setHalt h).mem = s.mem := rfl
@[simp] theorem State.setHalt_v (h : Halt) : (s.setHalt h).v = s.v := rfl
@[simp] theorem State.setHalt_pc (h : Halt) : (s.setHalt h).pc = s.pc := rfl
@[simp] theorem State.setHalt_i (h : Halt) : (s.setHalt h).i = s.i := rfl
@[simp] theorem State.setHalt_stack (h : Halt) : (s.setHalt h).stack = s.stack := rfl
@[simp] theorem State.setHalt_sp (h : Halt) : (s.setHalt h).sp = s.sp := rfl
@[simp] theorem State.setHalt_dt (h : Halt) : (s.setHalt h).dt = s.dt := rfl
@[simp] theorem State.setHalt_st (h : Halt) : (s.setHalt h).st = s.st := rfl
@[simp] theorem State.setHalt_key (h : Halt) : (s.setHalt h).key = s.key := rfl
@[simp] theorem State.setHalt_px (h : Halt) : (s.setHalt h).px = s.px := rfl
@[simp] theorem State.setHalt_df (h : Halt) : (s.setHalt h).df = s.df := rfl
@[simp] theorem State.setHalt_halt (h : Halt) : (s.setHalt h).halt = h := rfl
@[simp] theorem State.setHalt_draws (h : Halt) : (s.setHalt h).draws = s.draws := rfl
@[simp] theorem State.setHalt_font (h : Halt) : (s.setHalt h).font = s.font := rfl
@[simp] theorem State.readMem_setHalt (h : Halt) (addr : Word) : (s.setHalt h).readMem addr = s.readMem addr := rfl
@[simp] theorem State.getV_setHalt (h : Halt) (q : Reg) : (s.setHalt h).getV q = s.getV q := rfl
@[simp] theorem State.getKey_setHalt (h : Halt) (q : Reg) : (s.setHalt h).getKey q = s.getKey q := rfl
@[simp] theorem State.getStack_setHalt (h : Halt) (q : Fin 16) : (s.setHalt h).getStack q = s.getStack q := rfl
@[simp] theorem State.ea_setHalt (h : Halt) (m : Nat) : (s.setHalt h).ea m = s.ea m := rfl

/-! ## countDraw -/

@[simp] theorem State.countDraw_mem : s.countDraw.mem = s.mem := rfl
@[simp] theorem State.countDraw_v : s.countDraw.v = s.v := rfl
@[simp] theorem State.countDraw_pc : s.countDraw.pc = s.pc := rfl
@[simp] theorem State.countDraw_i : s.countDraw.i = s.i := rfl
@[simp] theorem State.countDraw_stack : s.countDraw.stack = s.stack := rfl
@[simp] theorem State.countDraw_sp : s.countDraw.sp = s.sp := rfl
@[simp] theorem State.countDraw_dt : s.countDraw.dt = s.dt := rfl
@[simp] theorem State.countDraw_st : s.countDraw.st = s.st := rfl
@[simp] theorem State.countDraw_key : s.countDraw.key = s.key := rfl
@[simp] theorem State.countDraw_px : s.countDraw.px = s.px := rfl
@[simp] theorem State.countDraw_df : s.countDraw.df = s.df := rfl
@[simp] theorem State.countDraw_halt : s.countDraw.halt = s.halt := rfl
@[simp] theorem State.countDraw_draws : s.countDraw.draws = s.draws + 1 := rfl
@[simp] theorem State.countDraw_font : s.countDraw.font = s.font := rfl
@[simp] theorem State.readMem_countDraw (addr : Word) : (s.countDraw).readMem addr = s.readMem addr := rfl
@[simp] theorem State.getV_countDraw (q : Reg) : (s.countDraw).getV q = s.getV q := rfl
@[simp] theorem State.getKey_countDraw (q : Reg) : (s.countDraw).getKey q = s.getKey q := rfl
@[simp] theorem State.getStack_countDraw (q : Fin 16) : (s.countDraw).getStack q = s.getStack q := rfl
@[simp] theorem State.ea_countDraw (m : Nat) : (s.countDraw).ea m = s.ea m := rfl

/-! ## advance -/

@[simp] theorem State.advance_mem : s.advance.mem = s.mem := rfl
@[simp] theorem State.advance_v : s.advance.v = s.v := rfl
@[simp] theorem State.advance_pc : s.advance.pc = s.pc + 2 := rfl
@[simp] theorem State.advance_i : s.advance.i = s.i := rfl
@[simp] theorem State.advance_stack : s.advance.stack = s.stack := rfl
@[simp] theorem State.advance_sp : s.advance.sp = s.sp := rfl
@[simp] theorem State.advance_dt : s.advance.dt = s.dt := rfl
@[simp] theorem State.advance_st : s.advance.st = s.st := rfl
@[simp] theorem State.advance_key : s.advance.key = s.key := rfl
@[simp] theorem State.advance_px : s.advance.px = s.px := rfl
@[simp] theorem State.advance_df : s.advance.df = s.df := rfl
@[simp] theorem State.advance_halt : s.advance.halt = s.halt := rfl
@[simp] theorem State.advance_draws : s.advance.draws = s.draws := rfl
@[simp] theorem State.advance_font : s.advance.font = s.font := rfl
@[simp] theorem State.readMem_advance (addr : Word) : (s.advance).readMem addr = s.readMem addr := rfl
@[simp] theorem State.getV_advance (q : Reg) : (s.advance).getV q = s.getV q := rfl
@[simp] theorem State.getKey_advance (q : Reg) : (s.advance).getKey q = s.getKey q := rfl
@[simp] theorem State.getStack_advance (q : Fin 16) : (s.advance).getStack q = s.getStack q := rfl
@[simp] theorem State.ea_advance (m : Nat) : (s.advance).ea m = s.ea m := rfl

/-! ## skipIf -/

@[simp] theorem State.skipIf_mem (c : Bool) : (s.skipIf c).mem = s.mem := rfl
@[simp] theorem State.skipIf_v (c : Bool) : (s.skipIf c).v = s.v := rfl
@[simp] theorem State.skipIf_pc (c : Bool) : (s.skipIf c).pc = s.pc + if c then 4 else 2 := rfl
@[simp] theorem State.skipIf_i (c : Bool) : (s.skipIf c).i = s.i := rfl
@[simp] theorem State.skipIf_stack (c : Bool) : (s.skipIf c).stack = s.stack := rfl
@[simp] theorem State.skipIf_sp (c : Bool) : (s.skipIf c).sp = s.sp := rfl
@[simp] theorem State.skipIf_dt (c : Bool) : (s.skipIf c).dt = s.dt := rfl
@[simp] theorem State.skipIf_st (c : Bool) : (s.skipIf c).st = s.st := rfl
@[simp] theorem State.skipIf_key (c : Bool) : (s.skipIf c).key = s.key := rfl
@[simp] theorem State.skipIf_px (c : Bool) : (s.skipIf c).px = s.px := rfl
@[simp] theorem State.skipIf_df (c : Bool) : (s.skipIf c).df = s.df := rfl
@[simp] theorem State.skipIf_halt (c : Bool) : (s.skipIf c).halt = s.halt := rfl
@[simp] theorem State.skipIf_draws (c : Bool) : (s.skipIf c).draws = s.draws := rfl
@[simp] theorem State.skipIf_font (c : Bool) : (s.skipIf c).font = s.font := rfl
@[simp] theorem State.readMem_skipIf (c : Bool) (addr : Word) : (s.skipIf c).readMem addr = s.readMem addr := rfl
@[simp] theorem State.getV_skipIf (c : Bool) (q : Reg) : (s.skipIf c).getV q = s.getV q := rfl
@[simp] theorem State.getKey_skipIf (c : Bool) (q : Reg) : (s.skipIf c).getKey q = s.getKey q := rfl
@[simp] theorem State.getStack_skipIf (c : Bool) (q : Fin 16) : (s.skipIf c).getStack q = s.getStack q := rfl
@[simp] theorem State.ea_skipIf (c : Bool) (m : Nat) : (s.skipIf c).ea m = s.ea m := rfl

/-! ## push -/

@[simp] theorem State.push_mem (k : Fin 16) (w : Word) : (s.push k w).mem = s.mem := rfl
@[simp] theorem State.push_v (k : Fin 16) (w : Word) : (s.push k w).v = s.v := rfl
@[simp] theorem State.push_pc (k : Fin 16) (w : Word) : (s.push k w).pc = s.pc := rfl
@[simp] theorem State.push_i (k : Fin 16) (w : Word) : (s.push k w).i = s.i := rfl
@[simp] theorem State.push_stack (k : Fin 16) (w : Word) : (s.push k w).stack = s.stack.set k w := rfl
@[simp] theorem State.push_sp (k : Fin 16) (w : Word) : (s.push k w).sp = k.succ := rfl
@[simp] theorem State.push_dt (k : Fin 16) (w : Word) : (s.push k w).dt = s.dt := rfl
@[simp] theorem State.push_st (k : Fin 16) (w : Word) : (s.push k w).st = s.st := rfl
@[simp] theorem State.push_key (k : Fin 16) (w : Word) : (s.push k w).key = s.key := rfl
@[simp] theorem State.push_px (k : Fin 16) (w : Word) : (s.push k w).px = s.px := rfl
@[simp] theorem State.push_df (k : Fin 16) (w : Word) : (s.push k w).df = s.df := rfl
@[simp] theorem State.push_halt (k : Fin 16) (w : Word) : (s.push k w).halt = s.halt := rfl
@[simp] theorem State.push_draws (k : Fin 16) (w : Word) : (s.push k w).draws = s.draws := rfl
@[simp] theorem State.push_font (k : Fin 16) (w : Word) : (s.push k w).font = s.font := rfl
@[simp] theorem State.readMem_push (k : Fin 16) (w : Word) (addr : Word) : (s.push k w).readMem addr = s.readMem addr := rfl
@[simp] theorem State.getV_push (k : Fin 16) (w : Word) (q : Reg) : (s.push k w).getV q = s.getV q := rfl
@[simp] theorem State.getKey_push (k : Fin 16) (w : Word) (q : Reg) : (s.push k w).getKey q = s.getKey q := rfl
@[simp] theorem State.ea_push (k : Fin 16) (w : Word) (m : Nat) : (s.push k w).ea m = s.ea m := rfl

/-! ## pop -/

@[simp] theorem State.pop_mem (k : Fin 16) : (s.pop k).mem = s.mem := rfl
@[simp] theorem State.pop_v (k : Fin 16) : (s.pop k).v = s.v := rfl
@[simp] theorem State.pop_pc (k : Fin 16) : (s.pop k).pc = s.pc := rfl
@[simp] theorem State.pop_i (k : Fin 16) : (s.pop k).i = s.i := rfl
@[simp] theorem State.pop_stack (k : Fin 16) : (s.pop k).stack = s.stack := rfl
@[simp] theorem State.pop_sp (k : Fin 16) : (s.pop k).sp = k.castSucc := rfl
@[simp] theorem State.pop_dt (k : Fin 16) : (s.pop k).dt = s.dt := rfl
@[simp] theorem State.pop_st (k : Fin 16) : (s.pop k).st = s.st := rfl
@[simp] theorem State.pop_key (k : Fin 16) : (s.pop k).key = s.key := rfl
@[simp] theorem State.pop_px (k : Fin 16) : (s.pop k).px = s.px := rfl
@[simp] theorem State.pop_df (k : Fin 16) : (s.pop k).df = s.df := rfl
@[simp] theorem State.pop_halt (k : Fin 16) : (s.pop k).halt = s.halt := rfl
@[simp] theorem State.pop_draws (k : Fin 16) : (s.pop k).draws = s.draws := rfl
@[simp] theorem State.pop_font (k : Fin 16) : (s.pop k).font = s.font := rfl
@[simp] theorem State.readMem_pop (k : Fin 16) (addr : Word) : (s.pop k).readMem addr = s.readMem addr := rfl
@[simp] theorem State.getV_pop (k : Fin 16) (q : Reg) : (s.pop k).getV q = s.getV q := rfl
@[simp] theorem State.getKey_pop (k : Fin 16) (q : Reg) : (s.pop k).getKey q = s.getKey q := rfl
@[simp] theorem State.getStack_pop (k : Fin 16) (q : Fin 16) : (s.pop k).getStack q = s.getStack q := rfl
@[simp] theorem State.ea_pop (k : Fin 16) (m : Nat) : (s.pop k).ea m = s.ea m := rfl

/-! ## raise -/

@[simp] theorem State.raise_mem (h : Halt) : (s.raise h).mem = s.mem := rfl
@[simp] theorem State.raise_v (h : Halt) : (s.raise h).v = s.v := rfl
@[simp] theorem State.raise_pc (h : Halt) : (s.raise h).pc = s.pc := rfl
@[simp] theorem State.raise_i (h : Halt) : (s.raise h).i = s.i := rfl
@[simp] theorem State.raise_stack (h : Halt) : (s.raise h).stack = s.stack := rfl
@[simp] theorem State.raise_sp (h : Halt) : (s.raise h).sp = s.sp := rfl
@[simp] theorem State.raise_dt (h : Halt) : (s.raise h).dt = s.dt := rfl
@[simp] theorem State.raise_st (h : Halt) : (s.raise h).st = s.st := rfl
@[simp] theorem State.raise_key (h : Halt) : (s.raise h).key = s.key := rfl
@[simp] theorem State.raise_px (h : Halt) : (s.raise h).px = s.px := rfl
@[simp] theorem State.raise_df (h : Halt) : (s.raise h).df = s.df := rfl
@[simp] theorem State.raise_halt (h : Halt) : (s.raise h).halt = h := rfl
@[simp] theorem State.raise_draws (h : Halt) : (s.raise h).draws = s.draws := rfl
@[simp] theorem State.raise_font (h : Halt) : (s.raise h).font = s.font := rfl
@[simp] theorem State.readMem_raise (h : Halt) (addr : Word) : (s.raise h).readMem addr = s.readMem addr := rfl
@[simp] theorem State.getV_raise (h : Halt) (q : Reg) : (s.raise h).getV q = s.getV q := rfl
@[simp] theorem State.getKey_raise (h : Halt) (q : Reg) : (s.raise h).getKey q = s.getKey q := rfl
@[simp] theorem State.getStack_raise (h : Halt) (q : Fin 16) : (s.raise h).getStack q = s.getStack q := rfl
@[simp] theorem State.ea_raise (h : Halt) (m : Nat) : (s.raise h).ea m = s.ea m := rfl

/-! ## setResultFlag -/

@[simp] theorem State.setResultFlag_mem (x : Reg) (r g : Byte) : (s.setResultFlag x r g).mem = s.mem := rfl
@[simp] theorem State.setResultFlag_pc (x : Reg) (r g : Byte) : (s.setResultFlag x r g).pc = s.pc := rfl
@[simp] theorem State.setResultFlag_i (x : Reg) (r g : Byte) : (s.setResultFlag x r g).i = s.i := rfl
@[simp] theorem State.setResultFlag_stack (x : Reg) (r g : Byte) : (s.setResultFlag x r g).stack = s.stack := rfl
@[simp] theorem State.setResultFlag_sp (x : Reg) (r g : Byte) : (s.setResultFlag x r g).sp = s.sp := rfl
@[simp] theorem State.setResultFlag_dt (x : Reg) (r g : Byte) : (s.setResultFlag x r g).dt = s.dt := rfl
@[simp] theorem State.setResultFlag_st (x : Reg) (r g : Byte) : (s.setResultFlag x r g).st = s.st := rfl
@[simp] theorem State.setResultFlag_key (x : Reg) (r g : Byte) : (s.setResultFlag x r g).key = s.key := rfl
@[simp] theorem State.setResultFlag_px (x : Reg) (r g : Byte) : (s.setResultFlag x r g).px = s.px := rfl
@[simp] theorem State.setResultFlag_df (x : Reg) (r g : Byte) : (s.setResultFlag x r g).df = s.df := rfl
@[simp] theorem State.setResultFlag_halt (x : Reg) (r g : Byte) : (s.setResultFlag x r g).halt = s.halt := rfl
@[simp] theorem State.setResultFlag_draws (x : Reg) (r g : Byte) : (s.setResultFlag x r g).draws = s.draws := rfl
@[simp] theorem State.setResultFlag_font (x : Reg) (r g : Byte) : (s.setResultFlag x r g).font = s.font := rfl
@[simp] theorem State.readMem_setResultFlag (x : Reg) (r g : Byte) (addr : Word) : (s.setResultFlag x r g).readMem addr = s.readMem addr := rfl
@[simp] theorem State.getKey_setResultFlag (x : Reg) (r g : Byte) (q : Reg) : (s.setResultFlag x r g).getKey q = s.getKey q := rfl
@[simp] theorem State.getStack_setResultFlag (x : Reg) (r g : Byte) (q : Fin 16) : (s.setResultFlag x r g).getStack q = s.getStack q := rfl
@[simp] theorem State.ea_setResultFlag (x : Reg) (r g : Byte) (m : Nat) : (s.setResultFlag x r g).ea m = s.ea m := rfl

/-! ## Operations that leave the state as it is -/

@[simp] theorem State.unknownOpcode_eq (w : Word) : s.unknownOpcode w = s := rfl
@[simp] theorem State.whileHalted_eq : s.whileHalted = s := rfl

/-! ## Agreement on parts -/

theorem Part.same_refl (p : Part) : Part.same s s p := by
  cases p <;> first | rfl | exact fun _ => rfl | exact fun _ _ => rfl

theorem Part.same_symm {s t : State} {p : Part} (h : Part.same s t p) : Part.same t s p := by
  cases p <;> first | exact Eq.symm h | exact fun a => (h a).symm | exact fun a b => (h a b).symm

theorem Part.same_trans {s t u : State} {p : Part} (h : Part.same s t p) (g : Part.same t u p) : Part.same s u p := by
  cases p <;>
    first
      | exact Eq.trans g h
      | exact fun a => (g a).trans (h a)
      | exact fun a b => (g a b).trans (h a b)

theorem ChangedOnly.refl (ps : List Part) : ChangedOnly ps s s := fun p _ => p.same_refl s

theorem ChangedOnly.trans {ps : List Part} {s t u : State} (h : ChangedOnly ps s t) (g : ChangedOnly ps t u) :
    ChangedOnly ps s u := fun p hp => Part.same_trans (h p hp) (g p hp)

theorem ChangedOnly.mono {ps qs : List Part} {s t : State} (h : ChangedOnly ps s t) (hs : ∀ p ∈ ps, p ∈ qs) :
    ChangedOnly qs s t := fun p hp => h p fun hm => hp (hs p hm)

end Sys2Proof.Machine
end

