-- ==== Sys2Proof/Laws/Ops.lean ====
section
/-!
SUPPORT. The laws of the shared operations: memory (read after write, canonical form), registers, keys, stack, display,
and what the two register loops of Fx55 and Fx65 leave.
-/

namespace Sys2Proof.Machine

/-! ## Memory -/

theorem Memory.read_erase (f : Font) (m : List Host.Cell) (a b : Nat) :
    Memory.read f (Memory.erase m a) b = if b = a then initialByte f b else Memory.read f m b := by
  induction m with
  | nil => simp [Memory.erase, Memory.read]
  | cons c m ih =>
    obtain ⟨c, u⟩ := c
    simp only [Memory.erase] at ih
    by_cases hc : c = a
    · subst hc
      by_cases hb : b = c
      · simpa [Memory.erase, Memory.read, hb] using ih
      · have : c ≠ b := fun e => hb e.symm
        simpa [Memory.erase, Memory.read, hb, this] using ih
    · by_cases hcb : c = b
      · subst hcb; simp [Memory.erase, Memory.read, hc]
      · simpa [Memory.erase, Memory.read, hc, hcb] using ih

/-- Inserting a cell that is not listed. -/
theorem Memory.read_insert {f : Font} {m : List Host.Cell} {a : Nat} (w : Byte) (h : ∀ c ∈ m, c.1 ≠ a) (b : Nat) :
    Memory.read f (Memory.insert a w m) b = if b = a then w else Memory.read f m b := by
  induction m with
  | nil => simp [Memory.insert, Memory.read, eq_comm]
  | cons c m ih =>
    obtain ⟨c, u⟩ := c
    have hc : c ≠ a := h _ (List.mem_cons_self ..)
    unfold Memory.insert
    split
    · simp [Memory.read, eq_comm]
    · simp only [Memory.read]
      rw [ih (fun d hd => h d (List.mem_cons_of_mem _ hd))]
      by_cases hcb : c = b
      · subst hcb; simp [hc]
      · simp [hcb]

/-- Read after write: the written cell holds the byte written, every other cell is as it was. -/
theorem Memory.read_write (f : Font) (m : List Host.Cell) (a b : Nat) (w : Byte) :
    Memory.read f (Memory.write f m a w) b = if b = a then w else Memory.read f m b := by
  unfold Memory.write
  split
  · rename_i hw
    rw [Memory.read_erase]
    by_cases hb : b = a <;> simp [hb, hw]
  · rw [Memory.read_insert, Memory.read_erase]
    · by_cases hb : b = a <;> simp [hb]
    · intro c hc
      simpa using (List.mem_filter.mp hc).2

theorem Memory.wfFrom_mono {f : Font} {lo lo' : Nat} {m : List Host.Cell} (h : Memory.wfFrom f lo m = true) (hl : lo' ≤ lo) :
    Memory.wfFrom f lo' m = true := by
  cases m with
  | nil => rfl
  | cons c m =>
    simp only [Memory.wfFrom, Bool.and_eq_true, decide_eq_true_eq] at h ⊢
    exact ⟨⟨⟨by omega, h.1.1.2⟩, h.1.2⟩, h.2⟩

theorem Memory.wfFrom_erase {f : Font} {lo : Nat} {m : List Host.Cell} (h : Memory.wfFrom f lo m = true) (a : Nat) :
    Memory.wfFrom f lo (Memory.erase m a) = true := by
  induction m generalizing lo with
  | nil => rfl
  | cons c m ih =>
    obtain ⟨b, u⟩ := c
    have h' := h
    simp only [Memory.wfFrom, Bool.and_eq_true, decide_eq_true_eq] at h
    simp only [Memory.erase] at ih
    by_cases hb : b = a
    · simpa [Memory.erase, hb] using Memory.wfFrom_mono (ih h.2) (by omega)
    · simpa [Memory.erase, hb, Memory.wfFrom, h.1.1.1, h.1.1.2, h.1.2] using ih h.2

theorem Memory.wfFrom_insert {f : Font} {lo a : Nat} {w : Byte} {m : List Host.Cell} (h : Memory.wfFrom f lo m = true)
    (hm : ∀ c ∈ m, c.1 ≠ a) (hl : lo ≤ a) (ha : a < Config.memSize) (hw : w ≠ initialByte f a) :
    Memory.wfFrom f lo (Memory.insert a w m) = true := by
  induction m generalizing lo with
  | nil => simp [Memory.insert, Memory.wfFrom, hl, ha, hw]
  | cons c m ih =>
    obtain ⟨b, u⟩ := c
    have hb : b ≠ a := hm _ (List.mem_cons_self ..)
    simp only [Memory.wfFrom, Bool.and_eq_true, decide_eq_true_eq] at h
    unfold Memory.insert
    split
    · simp only [Memory.wfFrom, Bool.and_eq_true, decide_eq_true_eq]
      exact ⟨⟨⟨hl, ha⟩, hw⟩, ⟨⟨⟨by omega, h.1.1.2⟩, h.1.2⟩, h.2⟩⟩
    · simp only [Memory.wfFrom, Bool.and_eq_true, decide_eq_true_eq]
      exact ⟨⟨⟨h.1.1.1, h.1.1.2⟩, h.1.2⟩, ih h.2 (fun d hd => hm d (List.mem_cons_of_mem _ hd)) (by omega)⟩

/-- A write keeps the canonical form. -/
theorem Memory.wf_write {f : Font} {a : Nat} {w : Byte} {m : List Host.Cell} (h : Memory.wf f m = true) (ha : a < Config.memSize) :
    Memory.wf f (Memory.write f m a w) = true := by
  unfold Memory.write
  split
  · exact Memory.wfFrom_erase h a
  · rename_i hw
    refine Memory.wfFrom_insert (Memory.wfFrom_erase h a) ?_ (Nat.zero_le a) ha hw
    intro c hc
    simpa using (List.mem_filter.mp hc).2

/-- Memory right after `Reset` is in canonical form. -/
theorem Memory.wf_reset (f : Font) : Memory.wf f (State.resetWith f).mem = true := rfl

theorem cellOf_lt (a : Word) : cellOf a < Config.memSize := Nat.mod_lt _ (by decide)

theorem State.inv_writeMem {s : State} (h : s.Inv) (a : Word) (w : Byte) : (s.writeMem a w).Inv :=
  Memory.wf_write h (cellOf_lt a)

/-- A byte read after a byte written: addresses are compared as cells (R63). -/
theorem State.readMem_writeMem (s : State) (a b : Word) (w : Byte) :
    (s.writeMem a w).readMem b = if cellOf b = cellOf a then w else s.readMem b :=
  Memory.read_write _ _ _ _ _

/-! ## Registers, keys, stack -/

theorem State.getV_setV (s : State) (r q : Reg) (b : Byte) :
    (s.setV r b).getV q = if q = r then b else s.getV q := by
  simp only [State.getV, State.setV, Fin.getElem_fin, Vector.getElem_set]
  by_cases h : q = r
  · simp [h]
  · have : r.val ≠ q.val := fun e => h (Fin.ext e.symm)
    simp [h, this]

@[simp] theorem State.getV_setV_self (s : State) (r : Reg) (b : Byte) : (s.setV r b).getV r = b := by
  simp [State.getV_setV]

theorem State.getV_setV_ne (s : State) {r q : Reg} (h : q ≠ r) (b : Byte) : (s.setV r b).getV q = s.getV q := by
  simp [State.getV_setV, h]

theorem State.getKey_setKey (s : State) (k q : Key) (c : Bool) :
    (s.setKey k c).getKey q = if q = k then c else s.getKey q := by
  simp only [State.getKey, State.setKey, Fin.getElem_fin, Vector.getElem_set]
  by_cases h : q = k
  · simp [h]
  · have : k.val ≠ q.val := fun e => h (Fin.ext e.symm)
    simp [h, this]

theorem State.getStack_push (s : State) (k q : Fin 16) (w : Word) :
    (s.push k w).getStack q = if q = k then w else s.getStack q := by
  simp only [State.getStack, State.push, Fin.getElem_fin, Vector.getElem_set]
  by_cases h : q = k
  · simp [h]
  · have : k.val ≠ q.val := fun e => h (Fin.ext e.symm)
    simp [h, this]

/-- What the ALU's result-and-flag write leaves in each register: the flag in VF, else the result in Vx. -/
theorem State.getV_setResultFlag (s : State) (x q : Reg) (r f : Byte) :
    (s.setResultFlag x r f).getV q = if q = vf then f else if q = x then r else s.getV q := by
  simp [State.setResultFlag, State.getV_setV]

/-! ## Display -/

@[simp] theorem Display.get_clear (x : Fin 64) (y : Fin 32) : Display.get Display.clear x y = false := by
  simp [Display.get, Display.clear]

theorem Display.get_toggle (d : Display) (x u : Fin 64) (y v : Fin 32) :
    Display.get (Display.toggle d x y) u v =
      if u = x ∧ v = y then !Display.get d x y else Display.get d u v := by
  simp only [Display.get, Display.toggle, Fin.getElem_fin, Vector.getElem_set]
  by_cases hv : v = y
  · subst hv
    by_cases hu : u = x
    · subst hu; simp
    · have : x.val ≠ u.val := fun e => hu (Fin.ext e.symm)
      simp [hu, this]
  · have : y.val ≠ v.val := fun e => hv (Fin.ext e.symm)
    simp [hv, this]

/-! ## The register loops of Fx55 and Fx65 -/

/-- A store of registers changes memory alone. -/
theorem State.storeUpTo_eq (s : State) (k : Nat) : s.storeUpTo k = { s with mem := (s.storeUpTo k).mem } := by
  induction k with
  | zero => rfl
  | succ k ih =>
    simp only [State.storeUpTo, State.writeMem]
    rw [ih]

@[simp] theorem State.storeUpTo_v (s : State) (k : Nat) : (s.storeUpTo k).v = s.v := by rw [State.storeUpTo_eq]
@[simp] theorem State.storeUpTo_pc (s : State) (k : Nat) : (s.storeUpTo k).pc = s.pc := by rw [State.storeUpTo_eq]
@[simp] theorem State.storeUpTo_i (s : State) (k : Nat) : (s.storeUpTo k).i = s.i := by rw [State.storeUpTo_eq]
@[simp] theorem State.storeUpTo_stack (s : State) (k : Nat) : (s.storeUpTo k).stack = s.stack := by rw [State.storeUpTo_eq]
@[simp] theorem State.storeUpTo_sp (s : State) (k : Nat) : (s.storeUpTo k).sp = s.sp := by rw [State.storeUpTo_eq]
@[simp] theorem State.storeUpTo_dt (s : State) (k : Nat) : (s.storeUpTo k).dt = s.dt := by rw [State.storeUpTo_eq]
@[simp] theorem State.storeUpTo_st (s : State) (k : Nat) : (s.storeUpTo k).st = s.st := by rw [State.storeUpTo_eq]
@[simp] theorem State.storeUpTo_key (s : State) (k : Nat) : (s.storeUpTo k).key = s.key := by rw [State.storeUpTo_eq]
@[simp] theorem State.storeUpTo_px (s : State) (k : Nat) : (s.storeUpTo k).px = s.px := by rw [State.storeUpTo_eq]
@[simp] theorem State.storeUpTo_df (s : State) (k : Nat) : (s.storeUpTo k).df = s.df := by rw [State.storeUpTo_eq]
@[simp] theorem State.storeUpTo_halt (s : State) (k : Nat) : (s.storeUpTo k).halt = s.halt := by rw [State.storeUpTo_eq]
@[simp] theorem State.storeUpTo_draws (s : State) (k : Nat) : (s.storeUpTo k).draws = s.draws := by rw [State.storeUpTo_eq]
@[simp] theorem State.storeUpTo_font (s : State) (k : Nat) : (s.storeUpTo k).font = s.font := by rw [State.storeUpTo_eq]
@[simp] theorem State.getV_storeUpTo (s : State) (k : Nat) (q : Reg) : (s.storeUpTo k).getV q = s.getV q := by
  rw [State.storeUpTo_eq]; rfl
@[simp] theorem State.getKey_storeUpTo (s : State) (k : Nat) (q : Key) : (s.storeUpTo k).getKey q = s.getKey q := by
  rw [State.storeUpTo_eq]; rfl
@[simp] theorem State.getStack_storeUpTo (s : State) (k : Nat) (q : Fin 16) : (s.storeUpTo k).getStack q = s.getStack q := by
  rw [State.storeUpTo_eq]; rfl
@[simp] theorem State.ea_storeUpTo (s : State) (k : Nat) (m : Nat) : (s.storeUpTo k).ea m = s.ea m := by
  rw [State.storeUpTo_eq]; rfl

theorem State.inv_storeUpTo {s : State} (h : s.Inv) (k : Nat) : (s.storeUpTo k).Inv := by
  induction k with
  | zero => exact h
  | succ k ih => exact State.inv_writeMem ih _ _

/-- A load of registers changes the registers alone. -/
theorem State.loadUpTo_eq (s : State) (k : Nat) : s.loadUpTo k = { s with v := (s.loadUpTo k).v } := by
  induction k with
  | zero => rfl
  | succ k ih =>
    simp only [State.loadUpTo, State.setV]
    rw [ih]

@[simp] theorem State.loadUpTo_mem (s : State) (k : Nat) : (s.loadUpTo k).mem = s.mem := by rw [State.loadUpTo_eq]
@[simp] theorem State.loadUpTo_pc (s : State) (k : Nat) : (s.loadUpTo k).pc = s.pc := by rw [State.loadUpTo_eq]
@[simp] theorem State.loadUpTo_i (s : State) (k : Nat) : (s.loadUpTo k).i = s.i := by rw [State.loadUpTo_eq]
@[simp] theorem State.loadUpTo_stack (s : State) (k : Nat) : (s.loadUpTo k).stack = s.stack := by rw [State.loadUpTo_eq]
@[simp] theorem State.loadUpTo_sp (s : State) (k : Nat) : (s.loadUpTo k).sp = s.sp := by rw [State.loadUpTo_eq]
@[simp] theorem State.loadUpTo_dt (s : State) (k : Nat) : (s.loadUpTo k).dt = s.dt := by rw [State.loadUpTo_eq]
@[simp] theorem State.loadUpTo_st (s : State) (k : Nat) : (s.loadUpTo k).st = s.st := by rw [State.loadUpTo_eq]
@[simp] theorem State.loadUpTo_key (s : State) (k : Nat) : (s.loadUpTo k).key = s.key := by rw [State.loadUpTo_eq]
@[simp] theorem State.loadUpTo_px (s : State) (k : Nat) : (s.loadUpTo k).px = s.px := by rw [State.loadUpTo_eq]
@[simp] theorem State.loadUpTo_df (s : State) (k : Nat) : (s.loadUpTo k).df = s.df := by rw [State.loadUpTo_eq]
@[simp] theorem State.loadUpTo_halt (s : State) (k : Nat) : (s.loadUpTo k).halt = s.halt := by rw [State.loadUpTo_eq]
@[simp] theorem State.loadUpTo_draws (s : State) (k : Nat) : (s.loadUpTo k).draws = s.draws := by rw [State.loadUpTo_eq]
@[simp] theorem State.loadUpTo_font (s : State) (k : Nat) : (s.loadUpTo k).font = s.font := by rw [State.loadUpTo_eq]
@[simp] theorem State.readMem_loadUpTo (s : State) (k : Nat) (a : Word) : (s.loadUpTo k).readMem a = s.readMem a := by
  rw [State.loadUpTo_eq]; rfl
@[simp] theorem State.getKey_loadUpTo (s : State) (k : Nat) (q : Key) : (s.loadUpTo k).getKey q = s.getKey q := by
  rw [State.loadUpTo_eq]; rfl
@[simp] theorem State.getStack_loadUpTo (s : State) (k : Nat) (q : Fin 16) : (s.loadUpTo k).getStack q = s.getStack q := by
  rw [State.loadUpTo_eq]; rfl
@[simp] theorem State.ea_loadUpTo (s : State) (k : Nat) (m : Nat) : (s.loadUpTo k).ea m = s.ea m := by
  rw [State.loadUpTo_eq]; rfl

/-- A load of the first `k` registers gives each of them its cell and keeps the rest. -/
theorem State.getV_loadUpTo (s : State) (k : Nat) (hk : k ≤ 16) (q : Reg) :
    (s.loadUpTo k).getV q = if q.val < k then s.readMem (s.ea q.val) else s.getV q := by
  induction k with
  | zero => simp [State.loadUpTo]
  | succ k ih =>
    have hlt : k < 16 := by omega
    have hf : (Fin.ofNat 16 k).val = k := Nat.mod_eq_of_lt hlt
    simp only [State.loadUpTo, State.getV_setV]
    by_cases hq : q = Fin.ofNat 16 k
    · have hv : q.val = k := by rw [hq]; exact hf
      simp [hq, Nat.mod_eq_of_lt hlt]
    · have hv : q.val ≠ k := fun e => hq (Fin.ext (by rw [hf]; exact e))
      rw [if_neg hq, ih (by omega)]
      by_cases hlt' : q.val < k
      · rw [if_pos hlt', if_pos (by omega)]
      · rw [if_neg hlt', if_neg (by omega)]

end Sys2Proof.Machine
end

