-- ==== Sys2Proof/Laws/Agents.lean ====
section
/-!
SUPPORT. What the operations of Machine/Agents.lean do to a session, each said once.
-/

namespace Sys2Proof.Machine

/-! ## Step and Load in a session -/

theorem Session.step_beforeReset {s : Session} (h : s.phase = .beforeReset) : s.step = .refused .stepBeforeReset := by
  simp [Session.step, h]

/-- Once a `Reset` has been invoked, `Step` is the machine's step, and the session runs. -/
theorem Session.step_next {s : Session} {t : State} (h : s.phase ≠ .beforeReset) (ht : Sys2Proof.Machine.step s.core = .next t) :
    s.step = .next ⟨.running, t⟩ := by
  cases hp : s.phase
  · exact absurd hp h
  all_goals simp [Session.step, hp, ht, Session.lift]

theorem Session.load_refused {s : Session} (h : s.phase ≠ .ready) (image : List Byte) :
    s.load image = .refused .loadOutsideLaunch := by
  cases hp : s.phase
  · simp [Session.load, hp]
  · exact absurd hp h
  · simp [Session.load, hp]

theorem Session.load_tooLong {s : Session} {image : List Byte} (h : s.phase = .ready) (hl : image.length > Config.maxImage) :
    s.load image = .fault .outOfSpace := by
  simp [Session.load, h, State.load, hl, Session.lift]

theorem Session.load_next {s : Session} {image : List Byte} (h : s.phase = .ready) (hl : ¬ image.length > Config.maxImage) :
    s.load image = .next ⟨.ready, s.core.copyFrom Config.progBase image⟩ := by
  simp [Session.load, h, State.load, hl, Session.lift]

/-! ## Copying an image -/

/-- Copying an image changes memory alone. -/
theorem State.copyFrom_eq (s : State) (a : Nat) (image : List Byte) :
    s.copyFrom a image = { s with mem := (s.copyFrom a image).mem } := by
  induction image generalizing s a with
  | nil => rfl
  | cons b bs ih =>
    simp only [State.copyFrom]
    rw [ih]
    rfl

theorem State.inv_copyFrom {s : State} (h : s.Inv) (a : Nat) (image : List Byte) : (s.copyFrom a image).Inv := by
  induction image generalizing s a with
  | nil => exact h
  | cons b bs ih => exact ih (State.inv_writeMem h _ _) _

/-! ## Sequences -/

/-- A sequence that completes, continued. -/
theorem runOps_append {ops : List Op} {s t : Session} (h : runOps ops s = .next t) (more : List Op) :
    runOps (ops ++ more) s = runOps more t := by
  induction ops generalizing s with
  | nil => injection h with h; subst h; rfl
  | cons op ops ih =>
    simp only [runOps, List.cons_append] at h ⊢
    split at h
    · exact ih h
    · cases h
    · cases h

end Sys2Proof.Machine
end

