-- ==== Sys2Proof/Laws/Decode.lean ====
section
/-!
SUPPORT. The fields of an assembled word are the operands it was assembled from, format by format; and the mask of each
format picks out its fixed bits. Decoding an encoded instruction rewrites with these and never unfolds a word.
-/

namespace Sys2Proof

theorem toFin_regBits (r : Fin 16) : (regBits r).toFin = r := by
  revert r; decide

@[simp] theorem opField_formatA (op : BitVec 4) (nnn : Addr12) : opField (formatA op nnn) = op := by
  simp only [opField, formatA]; exact BitVec.extractLsb'_append_eq_left

@[simp] theorem nnnField_formatA (op : BitVec 4) (nnn : Addr12) : nnnField (formatA op nnn) = nnn := by
  simp only [nnnField, formatA]; exact BitVec.extractLsb'_append_eq_right

/-! ## Slices of an assembled word -/

theorem slice_xk_op (a b : BitVec 4) (c : BitVec 8) : ((a ++ b) ++ c).extractLsb' 12 4 = a := by
  refine BitVec.eq_of_getLsbD_eq fun i hi => ?_
  simp only [BitVec.getLsbD_extractLsb', BitVec.getLsbD_append, hi, decide_true, Bool.true_and]
  split_ifs <;> first | omega | (congr 1; omega)

theorem slice_xk_x (a b : BitVec 4) (c : BitVec 8) : ((a ++ b) ++ c).extractLsb' 8 4 = b := by
  refine BitVec.eq_of_getLsbD_eq fun i hi => ?_
  simp only [BitVec.getLsbD_extractLsb', BitVec.getLsbD_append, hi, decide_true, Bool.true_and]
  split_ifs <;> first | omega | (congr 1; omega)

theorem slice_xk_kk (a b : BitVec 4) (c : BitVec 8) : ((a ++ b) ++ c).extractLsb' 0 8 = c := by
  refine BitVec.eq_of_getLsbD_eq fun i hi => ?_
  simp only [BitVec.getLsbD_extractLsb', BitVec.getLsbD_append, hi, decide_true, Bool.true_and]
  split_ifs <;> first | omega | (congr 1; omega)

theorem slice_xyn_op (a b c d : BitVec 4) : (((a ++ b) ++ c) ++ d).extractLsb' 12 4 = a := by
  refine BitVec.eq_of_getLsbD_eq fun i hi => ?_
  simp only [BitVec.getLsbD_extractLsb', BitVec.getLsbD_append, hi, decide_true, Bool.true_and]
  split_ifs <;> first | omega | (congr 1; omega)

theorem slice_xyn_x (a b c d : BitVec 4) : (((a ++ b) ++ c) ++ d).extractLsb' 8 4 = b := by
  refine BitVec.eq_of_getLsbD_eq fun i hi => ?_
  simp only [BitVec.getLsbD_extractLsb', BitVec.getLsbD_append, hi, decide_true, Bool.true_and]
  split_ifs <;> first | omega | (congr 1; omega)

theorem slice_xyn_y (a b c d : BitVec 4) : (((a ++ b) ++ c) ++ d).extractLsb' 4 4 = c := by
  refine BitVec.eq_of_getLsbD_eq fun i hi => ?_
  simp only [BitVec.getLsbD_extractLsb', BitVec.getLsbD_append, hi, decide_true, Bool.true_and]
  split_ifs <;> first | omega | (congr 1; omega)

theorem slice_xyn_n (a b c d : BitVec 4) : (((a ++ b) ++ c) ++ d).extractLsb' 0 4 = d := by
  refine BitVec.eq_of_getLsbD_eq fun i hi => ?_
  simp only [BitVec.getLsbD_extractLsb', BitVec.getLsbD_append, hi, decide_true, Bool.true_and]
  split_ifs <;> first | omega | (congr 1; omega)

/-! ## Fields of an assembled word -/

@[simp] theorem opField_formatXK (op : BitVec 4) (x : Reg) (kk : Byte) : opField (formatXK op x kk) = op := slice_xk_op ..

@[simp] theorem xField_formatXK (op : BitVec 4) (x : Reg) (kk : Byte) : xField (formatXK op x kk) = x := by
  exact (congrArg BitVec.toFin (slice_xk_x ..)).trans (toFin_regBits _)

@[simp] theorem kkField_formatXK (op : BitVec 4) (x : Reg) (kk : Byte) : kkField (formatXK op x kk) = kk := slice_xk_kk ..

@[simp] theorem opField_formatXYN (op : BitVec 4) (x y : Reg) (n : Fin 16) : opField (formatXYN op x y n) = op := slice_xyn_op ..

@[simp] theorem xField_formatXYN (op : BitVec 4) (x y : Reg) (n : Fin 16) : xField (formatXYN op x y n) = x := by
  exact (congrArg BitVec.toFin (slice_xyn_x ..)).trans (toFin_regBits _)

@[simp] theorem yField_formatXYN (op : BitVec 4) (x y : Reg) (n : Fin 16) : yField (formatXYN op x y n) = y := by
  exact (congrArg BitVec.toFin (slice_xyn_y ..)).trans (toFin_regBits _)

@[simp] theorem nField_formatXYN (op : BitVec 4) (x y : Reg) (n : Fin 16) : nField (formatXYN op x y n) = n := by
  exact (congrArg BitVec.toFin (slice_xyn_n ..)).trans (toFin_regBits _)

/-! ## Fields as numbers -/

theorem toNat_opField (w : Word) : (opField w).toNat = w.toNat / 4096 := by
  have := w.isLt
  simp only [opField, BitVec.extractLsb'_toNat, Nat.shiftRight_eq_div_pow]
  omega

theorem val_nField (w : Word) : (nField w).val = w.toNat % 16 := by
  simp [nField]

theorem kkField_eq_iff (w : Word) (b : Byte) : kkField w = b ↔ w.toNat % 256 = b.toNat := by
  rw [← BitVec.toNat_inj]
  simp [kkField, BitVec.extractLsb'_toNat]

/-! ## Masks -/

theorem formatA_mask (op : BitVec 4) (nnn : Addr12) : formatA op nnn &&& 0xF000#16 = op ++ 0#12 := by
  have h : (0xF000#16 : Word) = 0xF#4 ++ 0#12 := by decide
  rw [h, formatA, BitVec.and_append]
  have h4 : ∀ b : BitVec 4, b &&& 0xF#4 = b := by decide
  simp [h4]

theorem formatXK_mask (op : BitVec 4) (x : Reg) (kk : Byte) : formatXK op x kk &&& 0xF000#16 = op ++ 0#12 := by
  have h : (0xF000#16 : Word) = (0xF#4 ++ 0#4) ++ 0#8 := by decide
  have h4 : ∀ b : BitVec 4, b &&& 0xF#4 = b := by decide
  have hz : ∀ b : BitVec 4, (b ++ 0#4) ++ 0#8 = (b ++ 0#12 : Word) := by decide
  rw [h, formatXK, BitVec.and_append, BitVec.and_append]
  simpa [h4] using hz op

theorem formatXK_maskF0FF (op : BitVec 4) (x : Reg) (kk : Byte) :
    formatXK op x kk &&& 0xF0FF#16 = (op ++ 0#4) ++ kk := by
  have h : (0xF0FF#16 : Word) = (0xF#4 ++ 0#4) ++ 0xFF#8 := by decide
  have h4 : ∀ b : BitVec 4, b &&& 0xF#4 = b := by decide
  have h8 : kk &&& 0xFF#8 = kk := BitVec.and_allOnes
  rw [h, formatXK, BitVec.and_append, BitVec.and_append, h8]
  simp [h4]

theorem formatXYN_mask (op : BitVec 4) (x y : Reg) (n : Fin 16) :
    formatXYN op x y n &&& 0xF000#16 = op ++ 0#12 := by
  have h : (0xF000#16 : Word) = ((0xF#4 ++ 0#4) ++ 0#4) ++ 0#4 := by decide
  have h4 : ∀ b : BitVec 4, b &&& 0xF#4 = b := by decide
  have hz : ∀ b : BitVec 4, ((b ++ 0#4) ++ 0#4) ++ 0#4 = (b ++ 0#12 : Word) := by decide
  rw [h, formatXYN, BitVec.and_append, BitVec.and_append, BitVec.and_append]
  simpa [h4] using hz op

theorem formatXYN_maskF00F (op : BitVec 4) (x y : Reg) (n : Fin 16) :
    formatXYN op x y n &&& 0xF00F#16 = ((op ++ 0#4) ++ 0#4) ++ regBits n := by
  have h : (0xF00F#16 : Word) = ((0xF#4 ++ 0#4) ++ 0#4) ++ 0xF#4 := by decide
  have h4 : ∀ b : BitVec 4, b &&& 0xF#4 = b := by decide
  rw [h, formatXYN, BitVec.and_append, BitVec.and_append, BitVec.and_append]
  simp [h4]

/-! ## A word is its fields, assembled -/

theorem regBits_toFin (b : BitVec 4) : regBits b.toFin = b := by revert b; decide

/-- The four hexadecimal digits of a word assemble back to it. -/
theorem formatXYN_fields (w : Word) : formatXYN (opField w) (xField w) (yField w) (nField w) = w := by
  refine BitVec.eq_of_getLsbD_eq fun i hi => ?_
  simp only [formatXYN, xField, yField, nField, regBits_toFin, opField, BitVec.getLsbD_append, BitVec.getLsbD_extractLsb']
  split_ifs <;> rw [decide_eq_true (by omega), Bool.true_and] <;> congr 1 <;> omega

theorem formatXK_fields (w : Word) : formatXK (opField w) (xField w) (kkField w) = w := by
  refine BitVec.eq_of_getLsbD_eq fun i hi => ?_
  simp only [formatXK, xField, kkField, regBits_toFin, opField, BitVec.getLsbD_append, BitVec.getLsbD_extractLsb']
  split_ifs <;> rw [decide_eq_true (by omega), Bool.true_and] <;> congr 1 <;> omega

theorem formatA_fields (w : Word) : formatA (opField w) (nnnField w) = w := by
  refine BitVec.eq_of_getLsbD_eq fun i hi => ?_
  simp only [formatA, nnnField, opField, BitVec.getLsbD_append, BitVec.getLsbD_extractLsb']
  split_ifs <;> rw [decide_eq_true (by omega), Bool.true_and] <;> congr 1 <;> omega

end Sys2Proof
end

