-- ==== Sys2Proof/Laws/Exec.lean ====
section
/-!
SUPPORT. What the shared operations of the meanings leave, each said once: the stack slots, the key scan, the effective
addresses, the stored registers, the timers.
-/

namespace Sys2Proof.Machine

/-! ## Stack slots -/

theorem State.pushSlot_of_lt {s : State} (h : s.sp.val < 16) : s.pushSlot = some ⟨s.sp.val, h⟩ := dif_pos h

theorem State.pushSlot_of_full {s : State} (h : s.sp.val = 16) : s.pushSlot = none := dif_neg (by omega)

theorem State.popSlot_of_succ {s : State} {k : Fin 16} (h : s.sp.val = k.val + 1) : s.popSlot = some k := by
  unfold State.popSlot
  rw [dif_pos (by omega)]
  congr 1
  exact Fin.ext (by simp [h])

theorem State.popSlot_of_empty {s : State} (h : s.sp.val = 0) : s.popSlot = none := dif_neg (by omega)

/-! ## The key scan -/

theorem State.firstKey_eq_none {s : State} : s.firstKey = none ↔ ∀ k : Key, s.getKey k = false := by
  simp [State.firstKey, List.find?_eq_none]

/-- The key scan finds a pressed key with none below it. -/
theorem State.firstKey_eq_some {s : State} {k : Key} :
    s.firstKey = some k ↔ s.getKey k = true ∧ ∀ j : Key, j < k → s.getKey j = false := by
  constructor
  · intro h
    refine ⟨List.find?_some h, fun j hj => ?_⟩
    obtain ⟨-, as, bs, hab, has⟩ := List.find?_eq_some_iff_append.mp h
    have hlt : (List.finRange 16).Pairwise (· < ·) := List.pairwise_lt_finRange 16
    rw [hab] at hlt
    have hj' : j ∈ as ++ k :: bs := hab ▸ List.mem_finRange j
    rcases List.mem_append.mp hj' with hm | hm
    · simpa using has j hm
    · rcases List.mem_cons.mp hm with rfl | hm
      · exact absurd hj (lt_irrefl _)
      · have := (List.pairwise_cons.mp (List.pairwise_append.mp hlt).2.1).1 j hm
        exact absurd hj (not_lt_of_gt this)
  · rintro ⟨hk, hlow⟩
    cases hf : s.firstKey with
    | none => exact absurd (State.firstKey_eq_none.mp hf k) (by simp [hk])
    | some j =>
      have hj : s.getKey j = true := List.find?_some hf
      obtain ⟨-, as, bs, hab, has⟩ := List.find?_eq_some_iff_append.mp hf
      have hlt : (List.finRange 16).Pairwise (· < ·) := List.pairwise_lt_finRange 16
      rw [hab] at hlt
      have hk' : k ∈ as ++ j :: bs := hab ▸ List.mem_finRange k
      rcases List.mem_append.mp hk' with hm | hm
      · exact absurd (has k hm) (by simp [hk])
      · rcases List.mem_cons.mp hm with rfl | hm
        · rfl
        · have := (List.pairwise_cons.mp (List.pairwise_append.mp hlt).2.1).1 k hm
          exact absurd (hlow j this) (by simp [hj])

/-! ## Cells -/

/-- The cell of an address plus an offset: the sum mod 4096, whatever the sum wraps to in 16 bits. -/
theorem cellOf_add (a : Word) (k : Nat) : cellOf (a + BitVec.ofNat 16 k) = (a.toNat + k) % 4096 := by
  simp only [cellOf, Config.memSize, BitVec.toNat_add, BitVec.toNat_ofNat]
  omega

theorem cellOf_add_inj {a : Word} {j k : Nat} (hj : j < 4096) (hk : k < 4096)
    (h : cellOf (a + BitVec.ofNat 16 j) = cellOf (a + BitVec.ofNat 16 k)) : j = k := by
  rw [cellOf_add, cellOf_add] at h
  omega

/-- The two cells of an instruction word are different cells. -/
theorem cellOf_succ_ne (a : Word) : cellOf (a + 1) ≠ cellOf a := by
  have h := cellOf_add a 1
  intro e
  rw [show a + 1 = a + BitVec.ofNat 16 1 from rfl, h, cellOf, Config.memSize] at e
  omega

/-- What a read finds after the first `k` registers have been stored. -/
theorem State.readMem_storeUpTo_of_ne (s : State) (k : Nat) (a : Word)
    (h : ∀ j < k, cellOf a ≠ cellOf (s.ea j)) : (s.storeUpTo k).readMem a = s.readMem a := by
  induction k with
  | zero => rfl
  | succ k ih =>
    have he : (s.storeUpTo k).ea k = s.ea k := by rw [State.storeUpTo_eq]; rfl
    rw [State.storeUpTo, State.readMem_writeMem, if_neg (h k (by omega))]
    exact ih fun j hj => h j (by omega)

theorem State.readMem_storeUpTo (s : State) (k : Nat) (hk : k ≤ 16) (q : Reg) (hq : q.val < k) :
    (s.storeUpTo k).readMem (s.ea q.val) = s.getV q := by
  induction k with
  | zero => omega
  | succ k ih =>
    have hf : (Fin.ofNat 16 k).val = k := Nat.mod_eq_of_lt (by omega)
    rw [State.storeUpTo, State.readMem_writeMem]
    by_cases hqk : q.val = k
    · have : q = Fin.ofNat 16 k := Fin.ext (by rw [hf]; exact hqk)
      rw [if_pos (by rw [hqk]), this]
    · rw [if_neg, ih (by omega) (by omega)]
      exact fun e => hqk (cellOf_add_inj (by omega) (by omega) e)

/-! ## Timers -/

/-- A timer moves one towards 0 and stops there. -/
theorem toNat_countDown (b : Byte) : (countDown b).toNat = b.toNat - 1 := by
  unfold countDown
  split
  · rename_i h; simp [h]
  · rename_i h
    have : b.toNat ≠ 0 := fun e => h (BitVec.eq_of_toNat_eq (by simpa using e))
    rw [BitVec.toNat_sub]
    have := b.isLt
    simp
    omega

/-! ## Flags -/

theorem toNat_flagByte (b : Bool) : (flagByte b).toNat = if b = true then 1 else 0 := by cases b <;> rfl

@[simp] theorem flagByte_eq_one (b : Bool) : flagByte b = 1#8 ↔ b = true := by cases b <;> decide

@[simp] theorem flagByte_eq_zero (b : Bool) : flagByte b = 0#8 ↔ b = false := by cases b <;> decide

/-! ## Operands -/

@[simp] theorem toNat_zextAddr (nnn : Addr12) : (zextAddr nnn).toNat = nnn.toNat := by
  have := nnn.isLt
  rw [zextAddr, BitVec.toNat_setWidth, Nat.mod_eq_of_lt (by omega)]

@[simp] theorem toNat_zextByte (b : Byte) : (zextByte b).toNat = b.toNat := by
  have := b.isLt
  rw [zextByte, BitVec.toNat_setWidth, Nat.mod_eq_of_lt (by omega)]

end Sys2Proof.Machine
end

