-- ==== Sys2Proof/Laws/Display.lean ====
section
/-!
SUPPORT. What drawing leaves: each pixel toggled exactly when a sprite bit lies on it, and a hit exactly when one of
those was set. The pixels one sprite touches are distinct, so the order of the loops does not matter (spec/44_display.md
R212).
-/

namespace Sys2Proof.Machine

/-- A 1 bit in the first `c` columns of a row lies on column `X`. -/
def rowCovers (row vx : Byte) (c : Nat) (X : Fin 64) : Prop :=
  ∃ k < c, spriteBit row k = true ∧ spriteX vx k = X

theorem spriteX_inj {vx : Byte} {j k : Nat} (hj : j < 64) (hk : k < 64) (h : spriteX vx j = spriteX vx k) : j = k := by
  have := congrArg Fin.val h
  simp only [spriteX, Fin.val_ofNat] at this
  omega

theorem spriteY_inj {vy : Byte} {j k : Nat} (hj : j < 32) (hk : k < 32) (h : spriteY vy j = spriteY vy k) : j = k := by
  have := congrArg Fin.val h
  simp only [spriteY, Fin.val_ofNat] at this
  omega

/-- One row: covered pixels of display row `y` are toggled, the others kept, and a hit is a covered pixel that was set. -/
theorem drawCols_spec (row vx : Byte) (y : Fin 32) (c : Nat) (hc : c ≤ 64) (p : Canvas) :
    (∀ X Y, (Y = y ∧ rowCovers row vx c X) →
      Display.get (drawCols row vx y c p).1 X Y = !Display.get p.1 X Y) ∧
    (∀ X Y, ¬(Y = y ∧ rowCovers row vx c X) → Display.get (drawCols row vx y c p).1 X Y = Display.get p.1 X Y) ∧
    ((drawCols row vx y c p).2 = true ↔ p.2 = true ∨ ∃ X, rowCovers row vx c X ∧ Display.get p.1 X y = true) := by
  induction c with
  | zero => simp [drawCols, rowCovers]
  | succ c ih =>
    obtain ⟨ih1, ih2, ih3⟩ := ih (by omega)
    have hcov : ∀ X, rowCovers row vx (c + 1) X ↔
        rowCovers row vx c X ∨ (spriteBit row c = true ∧ spriteX vx c = X) := by
      intro X
      constructor
      · rintro ⟨k, hk, hb, hX⟩
        by_cases hkc : k = c
        · subst hkc; exact .inr ⟨hb, hX⟩
        · exact .inl ⟨k, by omega, hb, hX⟩
      · rintro (⟨k, hk, hb, hX⟩ | ⟨hb, hX⟩)
        · exact ⟨k, by omega, hb, hX⟩
        · exact ⟨c, by omega, hb, hX⟩
    have hnew : ¬ rowCovers row vx c (spriteX vx c) := by
      rintro ⟨k, hk, -, hX⟩
      have := spriteX_inj (by omega) (by omega) hX
      omega
    by_cases hb : spriteBit row c = true
    · have hold := ih2 (spriteX vx c) y (fun h => hnew h.2)
      simp only [drawCols, drawPixel, hb, if_true]
      refine ⟨fun X Y h => ?_, fun X Y h => ?_, ?_⟩
      · rw [Display.get_toggle]
        by_cases hXY : X = spriteX vx c ∧ Y = y
        · rw [if_pos hXY, hold, hXY.1, hXY.2]
        · rw [if_neg hXY]
          refine ih1 X Y ⟨h.1, ((hcov X).mp h.2).resolve_right fun hr => hXY ⟨hr.2.symm, h.1⟩⟩
      · rw [Display.get_toggle, if_neg]
        · exact ih2 X Y fun hh => h ⟨hh.1, (hcov X).mpr (.inl hh.2)⟩
        · rintro ⟨rfl, rfl⟩
          exact h ⟨rfl, (hcov _).mpr (.inr ⟨hb, rfl⟩)⟩
      · rw [Bool.or_eq_true, hold, ih3]
        constructor
        · rintro ((h | ⟨X, hX, hg⟩) | h)
          · exact .inl h
          · exact .inr ⟨X, (hcov X).mpr (.inl hX), hg⟩
          · exact .inr ⟨_, (hcov _).mpr (.inr ⟨hb, rfl⟩), h⟩
        · rintro (h | ⟨X, hX, hg⟩)
          · exact .inl (.inl h)
          · rcases (hcov X).mp hX with hX | ⟨-, rfl⟩
            · exact .inl (.inr ⟨X, hX, hg⟩)
            · exact .inr hg
    · have hsame : ∀ X, rowCovers row vx (c + 1) X ↔ rowCovers row vx c X := by
        intro X; rw [hcov]; simp [hb]
      simp only [drawCols, drawPixel, hb, hsame]
      exact ⟨ih1, ih2, ih3⟩

/-- The first `n` rows of the sprite at I lie on pixel (X, Y). -/
def State.rowsCover (s : State) (vx vy : Byte) (n : Nat) (X : Fin 64) (Y : Fin 32) : Prop :=
  ∃ r < n, rowCovers (s.readMem (s.ea r)) vx 8 X ∧ spriteY vy r = Y

/-- Covering as the claims state it is covering as the drawing computes it. -/
theorem State.spriteCovers_iff (s : State) (vx vy : Byte) (n : Nat) (X : Fin 64) (Y : Fin 32) :
    s.spriteCovers vx vy n X Y ↔ s.rowsCover vx vy n X Y := by
  have hx : ∀ c, spriteX vx c = X ↔ X.val = (vx.toNat + c) % 64 := fun c =>
    ⟨fun h => by rw [← h]; rfl, fun h => Fin.ext h.symm⟩
  have hy : ∀ r, spriteY vy r = Y ↔ Y.val = (vy.toNat + r) % 32 := fun r =>
    ⟨fun h => by rw [← h]; rfl, fun h => Fin.ext h.symm⟩
  constructor
  · rintro ⟨r, hr, c, hc, hb, hX, hY⟩
    exact ⟨r, hr, ⟨c, hc, hb, (hx c).mpr hX⟩, (hy r).mpr hY⟩
  · rintro ⟨r, hr, ⟨c, hc, hb, hX⟩, hY⟩
    exact ⟨r, hr, c, hc, hb, (hx c).mp hX, (hy r).mp hY⟩

/-- A sprite of at most 32 rows: covered pixels are toggled, the others kept, and a hit is a covered pixel that was set. -/
theorem drawRows_spec (s : State) (vx vy : Byte) (n : Nat) (hn : n ≤ 32) (p : Canvas) :
    (∀ X Y, s.rowsCover vx vy n X Y → Display.get (drawRows s vx vy n p).1 X Y = !Display.get p.1 X Y) ∧
    (∀ X Y, ¬ s.rowsCover vx vy n X Y → Display.get (drawRows s vx vy n p).1 X Y = Display.get p.1 X Y) ∧
    ((drawRows s vx vy n p).2 = true ↔
      p.2 = true ∨ ∃ X Y, s.rowsCover vx vy n X Y ∧ Display.get p.1 X Y = true) := by
  induction n with
  | zero => simp [drawRows, State.rowsCover]
  | succ n ih =>
    obtain ⟨ih1, ih2, ih3⟩ := ih (by omega)
    obtain ⟨c1, c2, c3⟩ := drawCols_spec (s.readMem (s.ea n)) vx (spriteY vy n) 8 (by omega) (drawRows s vx vy n p)
    have hcov : ∀ X Y, s.rowsCover vx vy (n + 1) X Y ↔
        s.rowsCover vx vy n X Y ∨ (Y = spriteY vy n ∧ rowCovers (s.readMem (s.ea n)) vx 8 X) := by
      intro X Y
      constructor
      · rintro ⟨r, hr, hx, hY⟩
        by_cases hrn : r = n
        · subst hrn; exact .inr ⟨hY.symm, hx⟩
        · exact .inl ⟨r, by omega, hx, hY⟩
      · rintro (⟨r, hr, hx, hY⟩ | ⟨hY, hx⟩)
        · exact ⟨r, by omega, hx, hY⟩
        · exact ⟨n, by omega, hx, hY.symm⟩
    have hnew : ∀ X, ¬ s.rowsCover vx vy n X (spriteY vy n) := by
      rintro X ⟨r, hr, -, hY⟩
      have := spriteY_inj (by omega) (by omega) hY
      omega
    simp only [drawRows]
    refine ⟨fun X Y h => ?_, fun X Y h => ?_, ?_⟩
    · rcases (hcov X Y).mp h with h | h
      · rw [c2 X Y, ih1 X Y h]
        rintro ⟨rfl, -⟩
        exact hnew X h
      · rw [c1 X Y h, ih2 X Y]
        rw [h.1]
        exact hnew X
    · rw [c2 X Y fun hh => h ((hcov X Y).mpr (.inr hh)), ih2 X Y fun hh => h ((hcov X Y).mpr (.inl hh))]
    · rw [c3, ih3]
      constructor
      · rintro ((h | ⟨X, Y, hX, hg⟩) | ⟨X, hX, hg⟩)
        · exact .inl h
        · exact .inr ⟨X, Y, (hcov X Y).mpr (.inl hX), hg⟩
        · rw [ih2 X _ (hnew X)] at hg
          exact .inr ⟨X, _, (hcov X _).mpr (.inr ⟨rfl, hX⟩), hg⟩
      · rintro (h | ⟨X, Y, hX, hg⟩)
        · exact .inl (.inl h)
        · rcases (hcov X Y).mp hX with h | ⟨rfl, h⟩
          · exact .inl (.inr ⟨X, Y, h, hg⟩)
          · exact .inr ⟨X, h, by rw [ih2 X _ (hnew X)]; exact hg⟩

end Sys2Proof.Machine
end

