-- ==== Sys2Proof/Laws/PerInstr.lean ====
section
/-!
SUPPORT. Per instruction: its word has the fixed bits of its row of the opcode map (spec/30_encoding.md R95), its row is
one of the table's 34, and it is well formed.
-/

namespace Sys2Proof

/-- Every instruction is well formed, since its operands are typed by their field's width. -/
theorem Instr.wf_true (i : Instr) : i.wf = true := by
  cases i <;> simp only [Instr.wf, Instr.operands, Operands.wf, Bool.and_eq_true] <;>
    refine ⟨⟨⟨⟨?_, ?_⟩, ?_⟩, ?_⟩, ?_⟩ <;> first | exact decide_eq_true (Fin.isLt _) | exact decide_eq_true (BitVec.isLt _) | rfl

/-- The word of `i` masked as its row says is the row's match, and the row is in the table. -/
def Laws.RowMatch.Statement (i : Instr) : Prop :=
  encode i &&& i.row.1 = i.row.2 ∧ i.row ∈ opcodeRows ∧ i.wf = true

namespace Laws.RowMatch

theorem cls : Statement .cls := ⟨by decide, by decide, Instr.wf_true _⟩

theorem ret : Statement .ret := ⟨by decide, by decide, Instr.wf_true _⟩

theorem jp (nnn : Addr12) : Statement (.jp nnn) :=
  ⟨(formatA_mask _ _).trans rfl, by simp [Instr.row, opcodeRows], Instr.wf_true _⟩

theorem call (nnn : Addr12) : Statement (.call nnn) :=
  ⟨(formatA_mask _ _).trans rfl, by simp [Instr.row, opcodeRows], Instr.wf_true _⟩

theorem seImm (x : Reg) (kk : Byte) : Statement (.seImm x kk) :=
  ⟨(formatXK_mask _ _ _).trans rfl, by simp [Instr.row, opcodeRows], Instr.wf_true _⟩

theorem sneImm (x : Reg) (kk : Byte) : Statement (.sneImm x kk) :=
  ⟨(formatXK_mask _ _ _).trans rfl, by simp [Instr.row, opcodeRows], Instr.wf_true _⟩

theorem seReg (x y : Reg) : Statement (.seReg x y) :=
  ⟨(formatXYN_maskF00F _ _ _ _).trans rfl, by simp [Instr.row, opcodeRows], Instr.wf_true _⟩

theorem ldImm (x : Reg) (kk : Byte) : Statement (.ldImm x kk) :=
  ⟨(formatXK_mask _ _ _).trans rfl, by simp [Instr.row, opcodeRows], Instr.wf_true _⟩

theorem addImm (x : Reg) (kk : Byte) : Statement (.addImm x kk) :=
  ⟨(formatXK_mask _ _ _).trans rfl, by simp [Instr.row, opcodeRows], Instr.wf_true _⟩

theorem ldReg (x y : Reg) : Statement (.ldReg x y) :=
  ⟨(formatXYN_maskF00F _ _ _ _).trans rfl, by simp [Instr.row, opcodeRows], Instr.wf_true _⟩

theorem orReg (x y : Reg) : Statement (.orReg x y) :=
  ⟨(formatXYN_maskF00F _ _ _ _).trans rfl, by simp [Instr.row, opcodeRows], Instr.wf_true _⟩

theorem andReg (x y : Reg) : Statement (.andReg x y) :=
  ⟨(formatXYN_maskF00F _ _ _ _).trans rfl, by simp [Instr.row, opcodeRows], Instr.wf_true _⟩

theorem xorReg (x y : Reg) : Statement (.xorReg x y) :=
  ⟨(formatXYN_maskF00F _ _ _ _).trans rfl, by simp [Instr.row, opcodeRows], Instr.wf_true _⟩

theorem addReg (x y : Reg) : Statement (.addReg x y) :=
  ⟨(formatXYN_maskF00F _ _ _ _).trans rfl, by simp [Instr.row, opcodeRows], Instr.wf_true _⟩

theorem subReg (x y : Reg) : Statement (.subReg x y) :=
  ⟨(formatXYN_maskF00F _ _ _ _).trans rfl, by simp [Instr.row, opcodeRows], Instr.wf_true _⟩

theorem shrReg (x : Reg) : Statement (.shrReg x) :=
  ⟨(formatXYN_maskF00F _ _ _ _).trans rfl, by simp [Instr.row, opcodeRows], Instr.wf_true _⟩

theorem subnReg (x y : Reg) : Statement (.subnReg x y) :=
  ⟨(formatXYN_maskF00F _ _ _ _).trans rfl, by simp [Instr.row, opcodeRows], Instr.wf_true _⟩

theorem shlReg (x : Reg) : Statement (.shlReg x) :=
  ⟨(formatXYN_maskF00F _ _ _ _).trans rfl, by simp [Instr.row, opcodeRows], Instr.wf_true _⟩

theorem sneReg (x y : Reg) : Statement (.sneReg x y) :=
  ⟨(formatXYN_maskF00F _ _ _ _).trans rfl, by simp [Instr.row, opcodeRows], Instr.wf_true _⟩

theorem ldI (nnn : Addr12) : Statement (.ldI nnn) :=
  ⟨(formatA_mask _ _).trans rfl, by simp [Instr.row, opcodeRows], Instr.wf_true _⟩

theorem jpV0 (nnn : Addr12) : Statement (.jpV0 nnn) :=
  ⟨(formatA_mask _ _).trans rfl, by simp [Instr.row, opcodeRows], Instr.wf_true _⟩

theorem rnd (x : Reg) (kk : Byte) : Statement (.rnd x kk) :=
  ⟨(formatXK_mask _ _ _).trans rfl, by simp [Instr.row, opcodeRows], Instr.wf_true _⟩

theorem drw (x y : Reg) (n : Fin 16) : Statement (.drw x y n) :=
  ⟨(formatXYN_mask _ _ _ _).trans rfl, by simp [Instr.row, opcodeRows], Instr.wf_true _⟩

theorem skp (x : Reg) : Statement (.skp x) :=
  ⟨(formatXK_maskF0FF _ _ _).trans rfl, by simp [Instr.row, opcodeRows], Instr.wf_true _⟩

theorem sknp (x : Reg) : Statement (.sknp x) :=
  ⟨(formatXK_maskF0FF _ _ _).trans rfl, by simp [Instr.row, opcodeRows], Instr.wf_true _⟩

theorem ldVxDT (x : Reg) : Statement (.ldVxDT x) :=
  ⟨(formatXK_maskF0FF _ _ _).trans rfl, by simp [Instr.row, opcodeRows], Instr.wf_true _⟩

theorem ldVxK (x : Reg) : Statement (.ldVxK x) :=
  ⟨(formatXK_maskF0FF _ _ _).trans rfl, by simp [Instr.row, opcodeRows], Instr.wf_true _⟩

theorem ldDTVx (x : Reg) : Statement (.ldDTVx x) :=
  ⟨(formatXK_maskF0FF _ _ _).trans rfl, by simp [Instr.row, opcodeRows], Instr.wf_true _⟩

theorem ldSTVx (x : Reg) : Statement (.ldSTVx x) :=
  ⟨(formatXK_maskF0FF _ _ _).trans rfl, by simp [Instr.row, opcodeRows], Instr.wf_true _⟩

theorem addIVx (x : Reg) : Statement (.addIVx x) :=
  ⟨(formatXK_maskF0FF _ _ _).trans rfl, by simp [Instr.row, opcodeRows], Instr.wf_true _⟩

theorem ldFVx (x : Reg) : Statement (.ldFVx x) :=
  ⟨(formatXK_maskF0FF _ _ _).trans rfl, by simp [Instr.row, opcodeRows], Instr.wf_true _⟩

theorem ldBVx (x : Reg) : Statement (.ldBVx x) :=
  ⟨(formatXK_maskF0FF _ _ _).trans rfl, by simp [Instr.row, opcodeRows], Instr.wf_true _⟩

theorem storeRegs (x : Reg) : Statement (.storeRegs x) :=
  ⟨(formatXK_maskF0FF _ _ _).trans rfl, by simp [Instr.row, opcodeRows], Instr.wf_true _⟩

theorem loadRegs (x : Reg) : Statement (.loadRegs x) :=
  ⟨(formatXK_maskF0FF _ _ _).trans rfl, by simp [Instr.row, opcodeRows], Instr.wf_true _⟩

end Laws.RowMatch

end Sys2Proof
end

