-- ==== Sys2Proof/Tests/Slice0.lean ====
section
/-!
SUPPORT. Tests of the author's own: ill-formed operands, words written out from the opcode map, one-step vectors, and for
every obligation with hypotheses a witness that meets them. Expected values are those of spec/95_test_vectors.md, whose
vector ids (F, A, I, DR, K, T, RN, W, X) stand in the docstrings, or of the rule named there.
-/

namespace Sys2Proof.Tests

open Sys2Proof Sys2Proof.Machine

/-! ## Ill-formed operands are refused, one check each (R91, R93) -/

theorem test_wf_accepts_the_largest : Operands.wf { x := 15, y := 15, n := 15, kk := 255, nnn := 4095 } = true := by decide
theorem test_wf_refuses_x : Operands.wf { x := 16 } = false := by decide
theorem test_wf_refuses_y : Operands.wf { y := 16 } = false := by decide
theorem test_wf_refuses_n : Operands.wf { n := 16 } = false := by decide
theorem test_wf_refuses_kk : Operands.wf { kk := 256 } = false := by decide
theorem test_wf_refuses_nnn : Operands.wf { nnn := 4096 } = false := by decide

/-! ## Decoding: a word per row of R95, its digits written out from the row's pattern -/

theorem test_decode_cls : decode 0x00E0 = .ok .cls := by decide
theorem test_decode_ret : decode 0x00EE = .ok .ret := by decide
theorem test_decode_jp : decode 0x1ABC = .ok (.jp 0xABC) := by decide
theorem test_decode_call : decode 0x220E = .ok (.call 0x20E) := by decide
theorem test_decode_se_imm : decode 0x332A = .ok (.seImm 3 0x2A) := by decide
theorem test_decode_sne_imm : decode 0x432A = .ok (.sneImm 3 0x2A) := by decide
theorem test_decode_se_reg : decode 0x5120 = .ok (.seReg 1 2) := by decide
theorem test_decode_ld_imm : decode 0x6A2F = .ok (.ldImm 10 0x2F) := by decide
theorem test_decode_add_imm : decode 0x71FF = .ok (.addImm 1 0xFF) := by decide
theorem test_decode_ld_reg : decode 0x8120 = .ok (.ldReg 1 2) := by decide
theorem test_decode_or : decode 0x8121 = .ok (.orReg 1 2) := by decide
theorem test_decode_and : decode 0x8122 = .ok (.andReg 1 2) := by decide
theorem test_decode_xor : decode 0x8123 = .ok (.xorReg 1 2) := by decide
theorem test_decode_add_reg : decode 0x8F14 = .ok (.addReg 15 1) := by decide
theorem test_decode_sub : decode 0x81F5 = .ok (.subReg 1 15) := by decide
theorem test_decode_shr : decode 0x8126 = .ok (.shrReg 1) := by decide
theorem test_decode_subn : decode 0x8017 = .ok (.subnReg 0 1) := by decide
theorem test_decode_shl : decode 0x812E = .ok (.shlReg 1) := by decide
theorem test_decode_sne_reg : decode 0x9120 = .ok (.sneReg 1 2) := by decide
theorem test_decode_ld_i : decode 0xA2F0 = .ok (.ldI 0x2F0) := by decide
theorem test_decode_jp_v0 : decode 0xB2FF = .ok (.jpV0 0x2FF) := by decide
theorem test_decode_rnd : decode 0xC30F = .ok (.rnd 3 0x0F) := by decide
theorem test_decode_drw : decode 0xD125 = .ok (.drw 1 2 5) := by decide
theorem test_decode_skp : decode 0xE29E = .ok (.skp 2) := by decide
theorem test_decode_sknp : decode 0xE2A1 = .ok (.sknp 2) := by decide
theorem test_decode_ld_vx_dt : decode 0xF407 = .ok (.ldVxDT 4) := by decide
theorem test_decode_ld_vx_k : decode 0xF30A = .ok (.ldVxK 3) := by decide
theorem test_decode_ld_dt_vx : decode 0xF015 = .ok (.ldDTVx 0) := by decide
theorem test_decode_ld_st_vx : decode 0xF118 = .ok (.ldSTVx 1) := by decide
theorem test_decode_add_i : decode 0xF21E = .ok (.addIVx 2) := by decide
theorem test_decode_ld_f : decode 0xF029 = .ok (.ldFVx 0) := by decide
theorem test_decode_ld_b : decode 0xF333 = .ok (.ldBVx 3) := by decide
theorem test_decode_store : decode 0xF255 = .ok (.storeRegs 2) := by decide
theorem test_decode_load : decode 0xF265 = .ok (.loadRegs 2) := by decide

/-- W1 to W18: words that are no instruction. -/
theorem test_decode_refuses : ([0x0000, 0x00E1, 0x00EF, 0x01E0, 0x0123, 0x0FFF, 0x5121, 0x512F, 0x8128] ++
    [0x812D, 0x812F, 0x9121, 0xE000, 0xE19F, 0xE1A0, 0xF000, 0xF175, 0xF0FF] : List Word).all
    (fun w => decode w == .error (.unknownOpcode w)) = true := by decide

/-- R90: the first byte is the high one, and the rest of the sequence is handed back. -/
theorem test_decode_bytes : decodeBytes [0x12, 0x34, 0x56] = .ok (.jp 0x234, [0x56]) := by decide
theorem test_decode_bytes_truncated : decodeBytes [0x12] = .error .truncated := by decide

/-- R101: SHR and SHL are assembled with y = 0. -/
theorem test_encode_shr : encode (.shrReg 1) = 0x8106 := by decide
theorem test_encode_bytes : encodeBytes (.drw 1 2 5) = [0xD1, 0x25] := by decide
theorem test_table_word : decodeTableWord 16 0x6A2F = some (.ldImm 10 0x2F) := by decide
theorem test_table_word_unknown : decodeTableWord 16 0x5121 = none := by decide

/-- Two rows of R95 differ in a bit both masks keep, so no word is in both. -/
theorem test_rows_differ : opcodeRows.Pairwise (fun p q => p.2 &&& (p.1 &&& q.1) ≠ q.2 &&& (p.1 &&& q.1)) := by
  decide +kernel

/-! ## One step

The state before is the reset state with DF cleared, and the word at pc (the vectors' convention). -/

/-- The reset state with DF cleared by the renderer. -/
def base : State := State.reset.setDF false

/-- The state after a step on `s` with `w` at pc. -/
def after (w : Word) (s : State) : State :=
  match step (s.placeWord w) with
  | .next t => t
  | .fault _ => s
  | .refused _ => s

/-- F3 -/
theorem test_jp : (after 0x1201 base).pc = 0x201 := by decide

/-- F5 -/
theorem test_call : let t := after 0x2300 { base with sp := 15 }
    t.getStack 15 = 0x202 ∧ t.sp = 16 ∧ t.pc = 0x300 ∧ t.halt = .none := by decide
/-- F6 -/
theorem test_call_overflow : let t := after 0x2300 { base with sp := 16 }
    t.halt = .stackOverflow ∧ t.pc = 0x200 ∧ t.sp = 16 := by decide

/-- F9 -/
theorem test_ret : let t := after 0x00EE { base with stack := base.stack.set 15 0xABC, sp := 16 }
    t.pc = 0xABC ∧ t.sp = 15 ∧ t.getStack 15 = 0xABC := by decide
/-- F8 -/
theorem test_ret_underflow : let t := after 0x00EE base
    t.halt = .stackUnderflow ∧ t.pc = 0x200 ∧ t.sp = 0 := by decide

/-- F11, F11b -/
theorem test_se_imm : (after 0x332A ((base.setPc 0x300).setV 3 0x2A)).pc = 0x304 ∧
    (after 0x332A ((base.setPc 0x300).setV 3 0x2B)).pc = 0x302 := by decide
/-- F19 -/
theorem test_se_imm_wraps : (after 0x3000 (base.setPc 0xFFFE)).pc = 0x0002 := by decide
/-- F12, F12b -/
theorem test_sne_imm : (after 0x432A ((base.setPc 0x300).setV 3 0x2A)).pc = 0x302 ∧
    (after 0x432A ((base.setPc 0x300).setV 3 0x2B)).pc = 0x304 := by decide
/-- F13, F13b -/
theorem test_se_reg : (after 0x5120 ((base.setV 1 7).setV 2 7)).pc = 0x204 ∧
    (after 0x5120 ((base.setV 1 7).setV 2 8)).pc = 0x202 := by decide
/-- F14, F14b -/
theorem test_sne_reg : (after 0x9120 ((base.setV 1 7).setV 2 8)).pc = 0x204 ∧
    (after 0x9120 ((base.setV 1 7).setV 2 7)).pc = 0x202 := by decide
/-- F17, F18 -/
theorem test_jp_v0 : (after 0xBFFF (base.setV 0 0xFF)).pc = 0x10FE ∧ (after 0xB2FF (base.setV 2 0x55)).pc = 0x2FF := by
  decide

/-- F20 -/
theorem test_ld_imm : let t := after 0x6A2F (base.setPc 0xFFFE)
    t.getV 10 = 0x2F ∧ t.pc = 0 := by decide
/-- F21: the second byte is the font's first. -/
theorem test_fetch_at_the_top : (State.fetch { base with mem := [(0xFFF, 0x60)], pc := 0x0FFF }) = 0x60F0 := by decide
/-- A3 -/
theorem test_add_imm : let t := after 0x7103 ((base.setV 1 0xFE).setV 15 0x55)
    t.getV 1 = 0x01 ∧ t.getV 15 = 0x55 ∧ t.pc = 0x202 := by decide
/-- A6 -/
theorem test_add_imm_vf : (after 0x7F01 (base.setV 15 0xFF)).getV 15 = 0 := by decide
/-- A8 -/
theorem test_ld_reg : (after 0x8F10 (base.setV 1 0x77)).getV 15 = 0x77 := by decide
/-- A9 -/
theorem test_or : let t := after 0x8121 (((base.setV 1 0xF0).setV 2 0x0F).setV 15 0x5A)
    t.getV 1 = 0xFF ∧ t.getV 15 = 0x5A := by decide
/-- A10 -/
theorem test_and : let t := after 0x8122 (((base.setV 1 0xF3).setV 2 0x3F).setV 15 0x5A)
    t.getV 1 = 0x33 ∧ t.getV 15 = 0x5A := by decide
/-- A11 -/
theorem test_xor : let t := after 0x8123 (((base.setV 1 0xFF).setV 2 0x0F).setV 15 0x5A)
    t.getV 1 = 0xF0 ∧ t.getV 15 = 0x5A := by decide
/-- A16 -/
theorem test_add_carries : let t := after 0x8014 ((base.setV 0 0xFF).setV 1 0xFF)
    t.getV 0 = 0xFE ∧ t.getV 15 = 1 := by decide
/-- A18, A20 -/
theorem test_add_with_vf : (after 0x8F14 ((base.setV 15 5).setV 1 6)).getV 15 = 0 ∧
    (let t := after 0x81F4 ((base.setV 1 0x10).setV 15 1); t.getV 1 = 0x11 ∧ t.getV 15 = 0) := by decide
/-- A23, A25 -/
theorem test_sub : (let t := after 0x8015 ((base.setV 0 0x10).setV 1 0x10); t.getV 0 = 0 ∧ t.getV 15 = 1) ∧
    (let t := after 0x8015 (base.setV 1 1); t.getV 0 = 0xFF ∧ t.getV 15 = 0) := by decide
/-- A28, A29 -/
theorem test_sub_with_vf : (after 0x8F15 ((base.setV 15 3).setV 1 5)).getV 15 = 0 ∧
    (let t := after 0x81F5 ((base.setV 1 0x10).setV 15 1); t.getV 1 = 0x0F ∧ t.getV 15 = 1) := by decide
/-- A32 -/
theorem test_shr : let t := after 0x8126 ((base.setV 1 5).setV 2 0xF0)
    t.getV 1 = 2 ∧ t.getV 15 = 1 ∧ t.getV 2 = 0xF0 := by decide
/-- A33, A34 -/
theorem test_shr_vf : (after 0x8F06 (base.setV 15 3)).getV 15 = 1 ∧ (after 0x8F06 (base.setV 15 2)).getV 15 = 0 := by
  decide
/-- A37 -/
theorem test_subn : let t := after 0x8017 (((base.setV 0 0x0A).setV 1 3).setV 15 1)
    t.getV 0 = 0xF9 ∧ t.getV 15 = 0 := by decide
/-- A39, A40 -/
theorem test_subn_vf : (after 0x8F17 ((base.setV 15 2).setV 1 9)).getV 15 = 1 ∧
    (after 0x8F17 ((base.setV 15 9).setV 1 2)).getV 15 = 0 := by decide
/-- A43 -/
theorem test_shl : let t := after 0x812E ((base.setV 1 0x40).setV 2 0xFF)
    t.getV 1 = 0x80 ∧ t.getV 15 = 0 ∧ t.getV 2 = 0xFF := by decide
/-- A44, A45 -/
theorem test_shl_vf : (after 0x8F0E (base.setV 15 0x80)).getV 15 = 1 ∧
    (after 0x8F0E (base.setV 15 0x7F)).getV 15 = 0 := by decide

/-- I2 -/
theorem test_ld_i : (after 0xAFFF (base.setI 0xFFFF)).i = 0x0FFF := by decide
/-- I4, I5 -/
theorem test_add_i : (let t := after 0xF21E ((base.setI 0x0FFF).setV 2 1); t.i = 0x1000 ∧ t.getV 15 = 0) ∧
    (after 0xF21E ((base.setI 0xFFFF).setV 2 2)).i = 1 := by decide
/-- I9, I10 -/
theorem test_ld_f : (after 0xF029 (base.setV 0 0x10)).i = 0x50 ∧ (after 0xF029 (base.setV 0 0xFF)).i = 0x4FB := by decide
/-- I12 -/
theorem test_bcd : let t := after 0xF333 ((base.setI 0x300).setV 3 215)
    t.readMem 0x300 = 2 ∧ t.readMem 0x301 = 1 ∧ t.readMem 0x302 = 5 ∧ t.i = 0x300 := by decide
/-- I15 -/
theorem test_bcd_wraps : let t := after 0xF333 ((base.setI 0xFFE).setV 3 156)
    t.readMem 0xFFE = 1 ∧ t.readMem 0xFFF = 5 ∧ t.readMem 0x000 = 6 := by decide
/-- I18 -/
theorem test_store : let t := after 0xF255 (((((base.setI 0x300).setV 0 0x11).setV 1 0x22).setV 2 0x33).setV 3 0x44)
    t.readMem 0x300 = 0x11 ∧ t.readMem 0x301 = 0x22 ∧ t.readMem 0x302 = 0x33 ∧ t.readMem 0x303 = 0 ∧ t.i = 0x300 := by
  decide
/-- I26: a store over the running instruction. -/
theorem test_store_over_itself : let t := after 0xF155 (((base.setI 0x200).setV 0 0x62).setV 1 0x42)
    t.readMem 0x200 = 0x62 ∧ t.readMem 0x201 = 0x42 ∧ t.pc = 0x202 := by decide
/-- I21 -/
theorem test_load : let t := after 0xF265 (({ base with mem := [(0x301, 1), (0x302, 5)] }.setI 0x300).setV 3 0x99)
    t.getV 0 = 0 ∧ t.getV 1 = 1 ∧ t.getV 2 = 5 ∧ t.getV 3 = 0x99 ∧ t.i = 0x300 := by decide
/-- I22: the font table's first 16 bytes (log 2). -/
theorem test_load_font : (after 0xFF65 base).v.toList =
    [0xF0, 0x90, 0x90, 0x90, 0xF0, 0x20, 0x60, 0x20, 0x20, 0x70, 0xF0, 0x10, 0xF0, 0x80, 0xF0, 0xF0] := by decide

/-- The columns lit in row `y`. -/
def litRow (s : State) (y : Fin 32) : List (Fin 64) := (List.finRange 64).filter (fun x => Display.get s.px x y)

/-- DR1 -/
theorem test_cls : let t := after 0x00E0 (base.setPx (Display.toggle base.px 63 31))
    litRow t 31 = [] ∧ t.df = true ∧ t.pc = 0x202 := by decide +kernel
/-- DR3 -/
def drawnOnce : State := after 0xD011 ((base.setI 0x300).setV 0 60 |> fun s => s.writeMem 0x300 0xFF)
/-- DR3 -/
theorem test_drw : litRow drawnOnce 0 = [0, 1, 2, 3, 60, 61, 62, 63] ∧ drawnOnce.getV 15 = 0 ∧ drawnOnce.df = true := by
  decide +kernel
/-- DR4: the sprite drawn again from where DR3 left. -/
theorem test_drw_again : let t := after 0xD011 drawnOnce
    litRow t 0 = [] ∧ t.getV 15 = 1 ∧ t.pc = 0x204 := by decide +kernel

/-- RN1, over every draw: the upper half of V3 is 0; RN2: V3 is 0. -/
theorem test_rnd : ∀ draw : Byte, (draw &&& 0x0F) &&& 0xF0 = 0 ∧ draw &&& 0x00 = 0 := by decide +kernel
/-- R230: a draw is counted. -/
theorem test_rnd_counts : (after 0xC3FF base).draws = 1 ∧ (after 0xC3FF base).pc = 0x202 := by decide

/-- K1, K5 -/
theorem test_skp : (after 0xE29E (((base.setPc 0x240).setV 2 5).setKey 5 true)).pc = 0x244 ∧
    (after 0xE29E ((base.setV 2 0x15).setKey 5 true)).pc = 0x204 := by decide
/-- K3, K6 -/
theorem test_sknp : (after 0xE2A1 ((base.setPc 0x240).setV 2 5)).pc = 0x244 ∧
    (after 0xE2A1 ((base.setV 2 0xF5).setKey 5 true)).pc = 0x202 := by decide
/-- K9 -/
theorem test_ld_k : let t := after 0xF30A (((base.setPc 0x210).setKey 7 true).setKey 9 true)
    t.getV 3 = 7 ∧ t.pc = 0x212 ∧ t.getKey 7 = true := by decide
/-- K8 -/
theorem test_ld_k_waits : let t := after 0xF30A ((base.setPc 0x210).setV 3 0x55)
    t.getV 3 = 0x55 ∧ t.pc = 0x210 ∧ t.halt = .none := by decide
/-- T1 -/
theorem test_ld_vx_dt : let t := after 0xF407 (base.setDT 0x3C)
    t.getV 4 = 0x3C ∧ t.dt = 0x3C ∧ t.pc = 0x202 := by decide
/-- T2 -/
theorem test_ld_dt_vx : (after 0xF015 (base.setV 0 0x0A)).dt = 0x0A := by decide
/-- T3 -/
theorem test_ld_st_vx : (after 0xF118 (base.setV 1 2)).st = 2 ∧ Op.emits (base.placeWord 0xF118) .step = [.cycle .ok] := by
  decide

/-! ## The other operations -/

/-- X3, its second tick: (2, 1) to (1, 0) with the tone. -/
theorem test_tick : let s := (base.setDT 2).setST 1
    s.tick.dt = 1 ∧ s.tick.st = 0 ∧ Op.emits s .tick = [.tone] := by decide
/-- X7: no tick while the latch is set. -/
theorem test_tick_halted : let s := ((base.setDT 5).setST 5).setHalt .stackOverflow
    s.tick.dt = 5 ∧ s.tick.st = 5 ∧ Op.emits s .tick = [] := by decide
/-- X8: a set latch returns its condition again. -/
theorem test_latch : CycleOutcome.ofStep (base.setHalt .stackOverflow) = .stackOverflow ∧
    CycleOutcome.code .stackOverflow = 2 := by decide
/-- X10: an unknown opcode does not latch and is reported with its word; reset memory holds 0000 at pc. -/
theorem test_unknown : step base = .next base ∧ CycleOutcome.ofStep base = .unknownOpcode 0x0000 :=
  ⟨rfl, by decide⟩
/-- R304, P1's first two bytes: an image starts at 0x200. -/
theorem test_load_image : Op.perform ⟨.ready, State.reset⟩ (.load [0x60, 0x05]) =
    .next ⟨.ready, { State.reset with mem := [(0x200, 0x60), (0x201, 5)] }⟩ := rfl
/-- R303: no load in a machine just created, and none after a step, though that step (X13: 0x0000) changed nothing. -/
theorem test_load_refused : runOps [.load []] (Session.boot defaultFont) = .refused .loadOutsideLaunch ∧
    runOps [.reset, .step, .load [0x60]] (Session.boot defaultFont) = .refused .loadOutsideLaunch := ⟨rfl, rfl⟩
/-- R253: an oversized image is refused and no OutOfSpace once a step has run. -/
theorem test_oversized_load_after_a_step :
    Op.perform ⟨.running, State.reset⟩ (.load (List.replicate 3585 0)) = .refused .loadOutsideLaunch := rfl
/-- Log 18: a second load before the first step leaves the cells past its image as the first left them. -/
theorem test_second_load : runOps [.reset, .load [1, 2], .load [3]] (Session.boot defaultFont) =
    .next ⟨.ready, { State.reset with mem := [(0x200, 3), (0x201, 2)] }⟩ := rfl
/-- U16: no step before a reset. -/
theorem test_step_before_reset : runOps [.step] (Session.boot defaultFont) = .refused .stepBeforeReset := rfl
/-- R29, R35: `Reset` brings back the machine's own font, another than the default. -/
theorem test_other_font : let f : Font := Vector.replicate 80 0xAA
    (State.resetWith f).readMem 79 = 0xAA ∧ (State.resetWith f).readMem 80 = 0 ∧
    ((State.resetWith f).writeMem 0 1).doReset.readMem 0 = 0xAA := by decide
/-- R265: the renderer sees a frame only while DF is raised. -/
theorem test_frame : State.reset.frame = some State.reset.px ∧ base.frame = none := by decide

/-! ## Witnesses: for every obligation with hypotheses, inputs that meet them -/

/-- A state with a word of the program and a font cell overwritten. -/
def busy : State := { base with mem := [(0x010, 0x01), (0x200, 0x6A), (0x201, 0x2F)], dt := 7, st := 9 }

theorem witness_StepKeepsInvariant : busy.Inv ∧ step busy = .next (busy.setV 10 0x2F).advance := ⟨rfl, rfl⟩

theorem witness_EveryScheduleKeepsInvariant : State.reset.Inv ∧
    ∃ t, runOps [.reset, .load [0x6A, 0x2F], .step, .tick, .keyWrite 3 true, .drawFlagClear, .reset]
      (Session.boot defaultFont) = .next t :=
  ⟨rfl, _, rfl⟩

theorem witness_UnknownWordsByFamily : UnknownByFamily 0x00E1 ∧ UnknownByFamily 0x800F ∧ UnknownByFamily 0x9FFF ∧
    UnknownByFamily 0xE09F ∧ UnknownByFamily 0xF066 ∧ ¬ UnknownByFamily 0x00E0 ∧ ¬ UnknownByFamily 0x800E ∧
    ¬ UnknownByFamily 0x9FF0 ∧ ¬ UnknownByFamily 0xE09E ∧ ¬ UnknownByFamily 0xF065 := by
  simp [UnknownByFamily]

theorem witness_DecodedWordsReassemble : decode 0x8126 = .ok (.shrReg 1) ∧ decode 0x812E = .ok (.shlReg 1) ∧
    decode 0x8125 = .ok (.subReg 1 2) := by decide

theorem witness_OpcodeRowsDecideDecoding : (0xF0FF#16, 0xF065#16) ∈ opcodeRows ∧ 0xFF65#16 &&& 0xF0FF#16 = 0xF065#16 ∧
    decode 0xFF65 = .ok (.loadRegs 15) ∧ (Instr.loadRegs 15).row = (0xF0FF#16, 0xF065#16) := by decide

/-- An address outside the two cells of the placed word, pc at the top of memory. -/
theorem witness_PlacedInstructionRuns : let s := base.setPc 0xFFF
    cellOf 0x001 ≠ cellOf s.pc ∧ cellOf 0x001 ≠ cellOf (s.pc + 1) ∧ cellOf (s.pc + 1) = 0 := by decide

theorem witness_StepRunsTheDecodedInstruction : busy.halt = .none ∧ busy.readMem busy.pc = 0x6A ∧
    busy.readMem (busy.pc + 1) = 0x2F ∧ decode (0x6A#8 ++ 0x2F#8) = .ok (.ldImm 10 0x2F) ∧
    Instr.wf (.ldImm 10 0x2F) = true := by decide

theorem witness_StepReturnsItsOutcome :
    (let s := { base with sp := 16 }.placeWord 0x2300; s.halt = .none ∧ decode s.fetch = .ok (.call 0x300)) ∧
    (let s := base.placeWord 0x00EE; s.halt = .none ∧ decode s.fetch = .ok .ret) ∧
    (busy.halt = .none ∧ decode busy.fetch = .ok (.ldImm 10 0x2F)) := by decide

theorem witness_StepLeavesTimersKeysAndDrawFlag : step busy = .next (busy.setV 10 0x2F).advance ∧
    (∀ x, decode busy.fetch ≠ .ok (.ldDTVx x)) ∧ (∀ x, decode busy.fetch ≠ .ok (.ldSTVx x)) ∧
    step (State.reset.placeWord 0x6A2F) = .next ((State.reset.placeWord 0x6A2F).setV 10 0x2F).advance ∧
    State.reset.df = true := ⟨rfl, by decide, by decide, rfl, rfl⟩

/-- A state and what SUB with x = 15 makes of it: for PcFollowsTheTable and OnlyTheNamedStateIsWritten. -/
theorem witness_exec_next : exec (.subReg 15 1) busy = .next ((busy.setV 15 0).setV 15 1).advance := rfl

theorem witness_DisplayAndSoundTimerStayUnread :
    ChangedOnly [.st, .df] busy ((busy.setST 3).setDF true) ∧
    ChangedOnly [.px] busy (busy.setPx (Display.toggle busy.px 5 5)) ∧
    ChangedOnly [.st, .df, .px] busy (((busy.setST 3).setDF true).setPx (Display.toggle busy.px 5 5)) ∧
    (∃ t, exec (.drw 0 0 1) busy = .next t) ∧ ∃ t, exec (.addReg 15 1) busy = .next t := by
  refine ⟨fun p hp => ?_, fun p hp => ?_, fun p hp => ?_, ⟨_, rfl⟩, ⟨_, rfl⟩⟩ <;> cases p <;> first | exact absurd (by decide) hp | rfl | exact fun _ => rfl | exact fun _ _ => rfl

theorem witness_StandingStillLasts_key : (base.placeWord 0xF30A).WaitsForKey := ⟨rfl, ⟨3, rfl⟩, by decide⟩
theorem witness_StandingStillLasts_jump : (base.placeWord 0x1200).JumpsToItself := ⟨rfl, .inl ⟨0x200, rfl, rfl⟩⟩
theorem witness_StandingStillLasts_jump_v0 : ((base.setV 0 0xFF).placeWord 0xB101).JumpsToItself :=
  ⟨rfl, .inr ⟨0x101, rfl, rfl⟩⟩

/-- Also for UnknownOpcodeChangesNothing. -/
theorem witness_StandingStillLasts_unknown : base.AtUnknownOpcode := ⟨rfl, by simp only [UnknownByFamily]; decide⟩

/-- Also for SetLatchFreezesTheMachine, whose inner clause `Reset` meets. -/
theorem witness_StandingStillLasts_latch : let s := base.setHalt .stackUnderflow
    s.Halted ∧ Op.perform ⟨.running, s⟩ .reset = .next ⟨.ready, s.doReset⟩ ∧ s.doReset.halt = .none :=
  ⟨by simp [State.Halted, State.setHalt], rfl, rfl⟩

/-- An ended program, well and not well, and operations of the four kinds. -/
theorem witness_AnEndedProgramStaysEnded : (base.placeWord 0x1200).EndedWell ∧ base.Ended ∧ Phase.running ≠ .beforeReset ∧
    ∀ op ∈ ([.step, .tick, .keyWrite 15 true, .drawFlagClear] : List Op), op.ordinary = true :=
  ⟨witness_StandingStillLasts_jump, .inr (.inl witness_StandingStillLasts_unknown), by decide, by decide⟩

theorem witness_EverySequenceIsABehaviour : Phase.ready ≠ .beforeReset ∧
    ∀ k : Nat, (if k % 2 = 0 then Op.step else Op.tick).ordinary = true := ⟨by decide, fun k => by split <;> rfl⟩

theorem witness_StartUpFollowsItsOrder : (Session.boot defaultFont).phase = .beforeReset ∧
    (⟨.ready, State.reset⟩ : Session).phase ≠ .beforeReset := by decide

theorem witness_KeptPromisesKeepTheMachineRunning : busy.withinPromises = true ∧
    (State.withinPromises ({ base with sp := 15 }.placeWord 0x2300)) = true ∧
    (State.withinPromises ((base.setI 0xFFD).placeWord 0xF033)) = true ∧
    (State.withinPromises ((base.setI 0xFFE).placeWord 0xF033)) = false ∧
    (State.withinPromises ((base.setI 80).placeWord 0xF055)) = true ∧
    (State.withinPromises ((base.setI 79).placeWord 0xF055)) = false := by decide

theorem witness_CallPushesTheReturnAddress : ({ base with sp := 15 } : State).sp.val < 16 := by decide
theorem witness_ReturnPopsThePc : ({ base with sp := 16 } : State).sp.val = (15 : Fin 16).val + 1 ∧
    ({ base with sp := 1 } : State).sp.val = (0 : Fin 16).val + 1 := by decide
theorem witness_StackConditionsSetOnlyTheLatch : ({ base with sp := 16 } : State).sp.val = 16 ∧ base.sp.val = 0 := by decide
theorem witness_NestedCallsReturn : base.sp.val + (List.replicate 16 (0x202#12)).length ≤ 16 ∧
    ({ base with sp := 16 } : State).sp.val + ([] : List Addr12).length ≤ 16 := by decide

/-- The x = 15 side of the flag statements, and the x = 14 side. -/
theorem witness_flag_destination : (14 : Reg) ≠ 15 ∧ ¬ (15 : Reg) ≠ 15 := by decide

theorem witness_EffectiveAddressesWrap : (15 < 16) ∧ cellOf ((base.setI 0xFFF8).ea 15) = 7 ∧
    cellOf ((base.setI 0xFFF8).ea 0) = 0xFF8 := by decide

/-- Addresses outside the three cells of BCD and the sixteen of a full store, I near the top of memory; and a register
past the last one loaded. -/
theorem witness_memory_transfers : let s := base.setI 0xFFE
    (∀ k < 3, cellOf 0x001 ≠ cellOf (s.ea k)) ∧ (∀ k ≤ (15 : Reg).val, cellOf 0x00E ≠ cellOf (s.ea k)) ∧
    (0 : Reg) ≤ 14 ∧ (14 : Reg) < 15 := by decide

theorem witness_StoredRegistersLoadBack : let s := base.setI 0xFF8
    ∃ t, exec (.storeRegs 15) s = .next t ∧ Part.same t (t.setV 0 0x55) .mem ∧ (t.setV 0 0x55).i = s.i :=
  ⟨_, rfl, fun a => State.readMem_setV _ _ _ a, by simp⟩

/-- I at pc + 2, one above it and one below it, and far from it: each clause has a case. -/
theorem witness_StoresAreFetchedNext : base.pc + 2 = 0x202 ∧ cellOf ((base.setI 0x202).ea 0) = cellOf 0x202 ∧
    cellOf ((base.setI 0x202).ea 1) = cellOf 0x203 ∧ cellOf ((base.setI 0x203).ea 0) = cellOf 0x203 ∧
    (∀ k < 3, cellOf ((base.setI 0x203).ea k) ≠ cellOf 0x202) ∧ cellOf ((base.setI 0x200).ea 2) = cellOf 0x202 ∧
    ∀ r : Reg, r ≤ 15 → cellOf ((base.setI 0x300).ea r.val) ≠ cellOf 0x203 := by decide

/-- A pixel the sprite of `drawnOnce` covers, and one it does not. -/
theorem witness_DrawTogglesTheCoveredPixels : drawnOnce.spriteCovers 60 0 1 3 0 ∧ ¬ drawnOnce.spriteCovers 60 0 1 3 1 := by
  refine ⟨⟨0, by decide, 7, by decide, by decide +kernel, by decide, by decide⟩, ?_⟩
  rintro ⟨r, hr, c, -, -, -, h⟩
  have : r = 0 := by omega
  subst this
  exact absurd h (by decide)

/-- DF11 drawn where VF was the column (DR11), then the same sprite from V2, which holds the old VF. -/
theorem witness_DrawingTwiceRestoresTheDisplay : let s := (busy.setV 15 5).setV 2 5
    ∃ t, exec (.drw 15 1 1) s = .next t ∧ Part.same t t .px ∧ t.getV 2 = s.getV 15 ∧ t.getV 1 = s.getV 1 ∧
      ∀ r < (1 : Fin 16).val, t.readMem (t.ea r) = s.readMem (s.ea r) := by
  refine ⟨_, rfl, Part.same_refl _ _, ?_, ?_, fun r _ => ?_⟩ <;> simp [State.getV_setV, vf]

/-- The second clause and, on a clear display, the inner one. -/
theorem witness_DrawingTwiceRestoresTheDisplay_at_once : (0 : Reg) ≠ 15 ∧ (14 : Reg) ≠ 15 ∧
    (∃ t, exec (.drw 0 14 15) busy = .next t) ∧ ∀ X Y, Display.get busy.px X Y = false :=
  ⟨by decide, by decide, ⟨_, rfl⟩, fun X Y => Display.get_clear X Y⟩

theorem witness_RandomByteIsMasked : (0x0F#8).getLsbD 7 = false := by decide
theorem witness_KeySkips : (15 : Key).val = ((base.setV 2 0xFF).getV 2).toNat % 16 := by decide
theorem witness_KeyWaitTakesTheLowestKey : (let s := (base.setKey 7 true).setKey 9 true
    s.getKey 7 = true ∧ ∀ j : Key, j < 7 → s.getKey j = false) ∧
    (base.setKey 0 true).getKey 0 = true ∧ (∀ k : Key, base.getKey k = false) := by decide
theorem witness_TickCountsDown : base.halt = .none ∧ (base.setHalt .stackOverflow).halt ≠ .none := by decide
theorem witness_TimersRunDown : busy.halt = .none ∧ (0 < busy.st.toNat ∧ busy.st.toNat ≤ 9) ∧ ¬ busy.st.toNat ≤ 8 := by
  decide
theorem witness_LoadCopiesTheImage : (List.replicate 3585 (0xFF#8)).length > 3584 ∧
    (List.replicate 3584 (0xFF#8)).length ≤ 3584 ∧ Phase.ready = .ready ∧ Phase.running ≠ .ready ∧
    Phase.beforeReset ≠ .ready := by
  exact ⟨by rw [List.length_replicate]; decide, by rw [List.length_replicate], rfl, by decide, by decide⟩

end Sys2Proof.Tests
end

section
/-!
PROOFS. The layer under the obligations of spec/10_state.md: what `step` and the meanings with a condition answer, what each
named operation leaves unchanged, and that each named operation carries two states' agreement on a part along.
-/

namespace Sys2Proof.Machine

/-! ## What a step can do -/

/-- A step stands still, or it runs the decoded instruction with the latch clear. -/
theorem step_cases {s t : State} (h : step s = .next t) :
    t = s ∨ ∃ i, s.halt = .none ∧ decode s.fetch = .ok i ∧ exec i s = .next t := by
  cases hh : s.halt with
  | stackOverflow | stackUnderflow =>
    simp only [step, hh, State.whileHalted_eq] at h
    exact .inl (Host.Outcome.next.inj h).symm
  | none =>
    cases hd : decode s.fetch with
    | ok i =>
      simp only [step, hh, hd] at h
      exact .inr ⟨i, rfl, rfl, h⟩
    | error e =>
      simp only [step, hh, hd, State.unknownOpcode_eq] at h
      exact .inl (Host.Outcome.next.inj h).symm

/-! ## The three instructions with a condition, as one next state each -/

theorem exec_ret (s : State) :
    exec .ret s = .next (s.popSlot.elim (s.raise .stackUnderflow) fun k => (s.pop k).setPc (s.getStack k)) := by
  cases hk : s.popSlot <;> simp [exec, execRet, hk]

theorem exec_call (nnn : Addr12) (s : State) :
    exec (.call nnn) s =
      .next (s.pushSlot.elim (s.raise .stackOverflow) fun k => (s.push k (s.pc + 2)).setPc (zextAddr nnn)) := by
  cases hk : s.pushSlot <;> simp [exec, execCall, hk]

theorem exec_ldVxK (x : Reg) (s : State) :
    exec (.ldVxK x) s = .next (s.firstKey.elim s fun k => (s.setV x (keyByte k)).advance) := by
  cases hk : s.firstKey <;> simp [exec, execLdVxK, hk]

theorem exec_ret_cases {s t : State} (h : exec .ret s = .next t) :
    (s.popSlot = none ∧ t = s.raise .stackUnderflow) ∨
      ∃ k, s.popSlot = some k ∧ t = (s.pop k).setPc (s.getStack k) := by
  obtain rfl := Host.Outcome.next.inj ((exec_ret s).symm.trans h)
  cases s.popSlot with
  | none => exact .inl ⟨rfl, rfl⟩
  | some k => exact .inr ⟨k, rfl, rfl⟩

theorem exec_call_cases {nnn : Addr12} {s t : State} (h : exec (.call nnn) s = .next t) :
    (s.pushSlot = none ∧ t = s.raise .stackOverflow) ∨
      ∃ k, s.pushSlot = some k ∧ t = (s.push k (s.pc + 2)).setPc (zextAddr nnn) := by
  obtain rfl := Host.Outcome.next.inj ((exec_call nnn s).symm.trans h)
  cases s.pushSlot with
  | none => exact .inl ⟨rfl, rfl⟩
  | some k => exact .inr ⟨k, rfl, rfl⟩

theorem exec_ldVxK_cases {x : Reg} {s t : State} (h : exec (.ldVxK x) s = .next t) :
    (s.firstKey = none ∧ t = s) ∨ ∃ k, s.firstKey = some k ∧ t = (s.setV x (keyByte k)).advance := by
  obtain rfl := Host.Outcome.next.inj ((exec_ldVxK x s).symm.trans h)
  cases s.firstKey with
  | none => exact .inl ⟨rfl, rfl⟩
  | some k => exact .inr ⟨k, rfl, rfl⟩

/-- The slot of a pop as the table of R24 names it. -/
theorem State.popSlot_of_pos {s : State} (h : 0 < s.sp.val) : s.popSlot = some (Fin.ofNat 16 (s.sp.val - 1)) :=
  State.popSlot_of_succ (by rw [Fin.val_ofNat]; omega)

/-! ## The frame of each named operation -/

section
variable (s : State)

theorem State.changedOnly_setV (r : Reg) (b : Byte) : ChangedOnly [.regs] s (s.setV r b) := fun p hp => by
  cases p <;> simp_all [Part.same]

theorem State.changedOnly_setPc (w : Word) : ChangedOnly [.pc] s (s.setPc w) := fun p hp => by
  cases p <;> simp_all [Part.same]

theorem State.changedOnly_setI (w : Word) : ChangedOnly [.index] s (s.setI w) := fun p hp => by
  cases p <;> simp_all [Part.same]

theorem State.changedOnly_setDT (b : Byte) : ChangedOnly [.dt] s (s.setDT b) := fun p hp => by
  cases p <;> simp_all [Part.same]

theorem State.changedOnly_setST (b : Byte) : ChangedOnly [.st] s (s.setST b) := fun p hp => by
  cases p <;> simp_all [Part.same]

theorem State.changedOnly_setPx (d : Display) : ChangedOnly [.px] s (s.setPx d) := fun p hp => by
  cases p <;> simp_all [Part.same]

theorem State.changedOnly_setDF (b : Bool) : ChangedOnly [.df] s (s.setDF b) := fun p hp => by
  cases p <;> simp_all [Part.same]

theorem State.changedOnly_raise (c : Halt) : ChangedOnly [.halt] s (s.raise c) := fun p hp => by
  cases p <;> simp_all [Part.same]

theorem State.changedOnly_countDraw : ChangedOnly [.draws] s s.countDraw := fun p hp => by
  cases p <;> simp_all [Part.same]

theorem State.changedOnly_push (k : Fin 16) (w : Word) : ChangedOnly [.stack, .sp] s (s.push k w) := fun p hp => by
  cases p <;> simp_all [Part.same]

theorem State.changedOnly_pop (k : Fin 16) : ChangedOnly [.sp] s (s.pop k) := fun p hp => by
  cases p <;> simp_all [Part.same]

theorem State.changedOnly_writeMem (a : Word) (w : Byte) : ChangedOnly [.mem] s (s.writeMem a w) := fun p hp => by
  cases p <;> simp_all [Part.same]

theorem State.changedOnly_storeUpTo (k : Nat) : ChangedOnly [.mem] s (s.storeUpTo k) := fun p hp => by
  cases p <;> simp_all [Part.same]

theorem State.changedOnly_loadUpTo (k : Nat) : ChangedOnly [.regs] s (s.loadUpTo k) := fun p hp => by
  cases p <;> simp_all [Part.same]

end

/-- Frames of operations done one after the other add up. -/
theorem ChangedOnly.comp {ps qs : List Part} {s t u : State} (h : ChangedOnly ps s t) (g : ChangedOnly qs t u) :
    ChangedOnly (ps ++ qs) s u :=
  (h.mono fun _ => List.mem_append_left _).trans (g.mono fun _ => List.mem_append_right _)

theorem ChangedOnly.setPc {ps : List Part} {s t : State} (h : ChangedOnly ps s t) (w : Word) :
    ChangedOnly (.pc :: ps) s (t.setPc w) :=
  (h.comp (t.changedOnly_setPc w)).mono (by simp [or_comm])

theorem ChangedOnly.advance {ps : List Part} {s t : State} (h : ChangedOnly ps s t) :
    ChangedOnly (.pc :: ps) s t.advance :=
  h.setPc _

theorem State.changedOnly_setResultFlag (s : State) (x : Reg) (r f : Byte) :
    ChangedOnly [.regs] s (s.setResultFlag x r f) :=
  (s.changedOnly_setV x r).trans (State.changedOnly_setV _ vf f)

theorem State.regsKeptBut_setV (s : State) (x : Reg) (b : Byte) : RegsKeptBut [x] s (s.setV x b) := fun _ hr =>
  s.getV_setV_ne (by simpa using hr) b

theorem State.regsKeptBut_setResultFlag (s : State) (x : Reg) (r f : Byte) :
    RegsKeptBut [x, 15] s (s.setResultFlag x r f) := fun q hq => by
  obtain ⟨hx, hvf⟩ : q ≠ x ∧ q ≠ vf := by simpa [vf] using hq
  rw [State.getV_setResultFlag, if_neg hvf, if_neg hx]

theorem State.regsKeptBut_loadUpTo (s : State) (x : Reg) :
    RegsKeptBut ((List.finRange 16).filter fun r => decide (r ≤ x)) s (s.loadUpTo (x.val + 1)) := fun q hq => by
  have hx : ¬ q.val < x.val + 1 := fun hlt =>
    hq (List.mem_filter.mpr ⟨List.mem_finRange q, decide_eq_true (Fin.le_def.mpr (by omega))⟩)
  rw [State.getV_loadUpTo s _ (by omega), if_neg hx]

/-! ## Memory's canonical form over a step (R30) -/

/-- Every meaning keeps memory in canonical form: only Fx33 and Fx55 touch it, by writes that keep the form. -/
theorem exec_keeps_inv {i : Instr} {s t : State} (hs : s.Inv) (h : exec i s = .next t) : t.Inv := by
  cases i
  case ldBVx x =>
    obtain rfl := Host.Outcome.next.inj h
    exact State.inv_writeMem (State.inv_writeMem (State.inv_writeMem hs _ _) _ _) _ _
  case storeRegs x =>
    obtain rfl := Host.Outcome.next.inj h
    exact State.inv_storeUpTo hs _
  case loadRegs x =>
    obtain rfl := Host.Outcome.next.inj h
    simpa [State.Inv] using hs
  case ret =>
    obtain ⟨-, rfl⟩ | ⟨k, -, rfl⟩ := exec_ret_cases h <;> exact hs
  case call nnn =>
    obtain ⟨-, rfl⟩ | ⟨k, -, rfl⟩ := exec_call_cases h <;> exact hs
  case ldVxK x =>
    obtain ⟨-, rfl⟩ | ⟨k, -, rfl⟩ := exec_ldVxK_cases h <;> exact hs
  all_goals
    obtain rfl := Host.Outcome.next.inj h
    exact hs

/-- Settles O3: a step stands still or runs one instruction, and every instruction keeps the canonical form. -/
theorem stepKeepsInvariant : Obligations.StepKeepsInvariant := by
  intro s t hs h
  rcases step_cases h with rfl | ⟨i, -, -, hi⟩
  · exact hs
  · exact exec_keeps_inv hs hi

/-! ## pc (R24) -/

/-- How a skip under the condition `c` leaves pc, as the table of R24 says it. -/
theorem State.skipIf_pc_of_iff (s : State) {c : Bool} {P : Prop} [Decidable P] (h : c = true ↔ P) :
    (s.skipIf c).pc = if P then s.pc + 4 else s.pc + 2 := by
  by_cases hP : P <;> simp [h, hP]

theorem exec_ret_pc {s t : State} (h : exec .ret s = .next t) : t.pc = pcAfter s .ret := by
  obtain rfl := Host.Outcome.next.inj ((exec_ret s).symm.trans h)
  by_cases hsp : 0 < s.sp.val
  · simp [pcAfter, hsp, State.popSlot_of_pos hsp]
  · simp [pcAfter, hsp, State.popSlot_of_empty (Nat.eq_zero_of_not_pos hsp)]

theorem exec_call_pc {nnn : Addr12} {s t : State} (h : exec (.call nnn) s = .next t) : t.pc = pcAfter s (.call nnn) := by
  obtain rfl := Host.Outcome.next.inj ((exec_call nnn s).symm.trans h)
  by_cases hsp : s.sp.val < 16
  · simp [pcAfter, hsp, State.pushSlot_of_lt hsp, zextAddr]
  · simp [pcAfter, hsp, State.pushSlot_of_full (s := s) (by omega)]

theorem exec_ldVxK_pc {x : Reg} {s t : State} (h : exec (.ldVxK x) s = .next t) : t.pc = pcAfter s (.ldVxK x) := by
  obtain ⟨hk, rfl⟩ | ⟨k, hk, rfl⟩ := exec_ldVxK_cases h
  · simp [pcAfter, State.firstKey_eq_none.mp hk]
  · have hpressed : ∃ k, s.getKey k = true := ⟨k, (State.firstKey_eq_some.mp hk).1⟩
    simp [pcAfter, hpressed]

/-- Settles O17: the jumps set pc, the skips choose by their condition, the three instructions with a condition have a
lemma each, and the rest end in `advance`. -/
theorem pcFollowsTheTable : Obligations.PcFollowsTheTable := by
  intro i s t h
  cases i
  case ret => exact exec_ret_pc h
  case call nnn => exact exec_call_pc h
  case ldVxK x => exact exec_ldVxK_pc h
  all_goals obtain rfl := Host.Outcome.next.inj h
  case seImm | seReg => exact s.skipIf_pc_of_iff beq_iff_eq
  case sneImm | sneReg => exact s.skipIf_pc_of_iff bne_iff_ne
  case skp x => exact s.skipIf_pc_of_iff Iff.rfl
  case sknp x => exact s.skipIf_pc_of_iff (iff_of_eq (Bool.not_eq_true' _))
  case storeRegs | loadRegs => simp [pcAfter]
  all_goals rfl

/-! ## What an instruction writes (R21 to R33) -/

theorem exec_keeps_regs {i : Instr} {s t : State} (h : exec i s = .next t) : RegsKeptBut (regsWritten i) s t := by
  cases i
  case ret =>
    obtain ⟨-, rfl⟩ | ⟨k, -, rfl⟩ := exec_ret_cases h <;> exact fun _ _ => rfl
  case call nnn =>
    obtain ⟨-, rfl⟩ | ⟨k, -, rfl⟩ := exec_call_cases h <;> exact fun _ _ => rfl
  case ldVxK x =>
    obtain ⟨-, rfl⟩ | ⟨k, -, rfl⟩ := exec_ldVxK_cases h
    · exact fun _ _ => rfl
    · exact s.regsKeptBut_setV x _
  all_goals obtain rfl := Host.Outcome.next.inj h
  case ldImm x _ | addImm x _ | ldReg x _ | orReg x _ | andReg x _ | xorReg x _ | rnd x _ | ldVxDT x =>
    exact s.regsKeptBut_setV x _
  case addReg x _ | subReg x _ | shrReg x | subnReg x _ | shlReg x => exact s.regsKeptBut_setResultFlag x _ _
  case drw => exact s.regsKeptBut_setV vf _
  case loadRegs x => exact s.regsKeptBut_loadUpTo x
  case storeRegs x => exact fun q _ => s.getV_storeUpTo _ q
  all_goals exact fun _ _ => rfl

theorem exec_changedOnly {i : Instr} {s t : State} (h : exec i s = .next t) :
    ChangedOnly ([.pc, .regs] ++ partsWritten i) s t := by
  cases i
  case ret =>
    obtain ⟨-, rfl⟩ | ⟨k, -, rfl⟩ := exec_ret_cases h
    · exact (s.changedOnly_raise _).mono (by simp [partsWritten])
    · exact ((s.changedOnly_pop k).setPc _).mono (by simp [partsWritten])
  case call nnn =>
    obtain ⟨-, rfl⟩ | ⟨k, -, rfl⟩ := exec_call_cases h
    · exact (s.changedOnly_raise _).mono (by simp [partsWritten])
    · exact ((s.changedOnly_push k _).setPc _).mono (by simp [partsWritten])
  case ldVxK x =>
    obtain ⟨-, rfl⟩ | ⟨k, -, rfl⟩ := exec_ldVxK_cases h
    · exact ChangedOnly.refl _ _
    · exact (s.changedOnly_setV x _).advance
  all_goals obtain rfl := Host.Outcome.next.inj h
  case ldImm | addImm | ldReg | orReg | andReg | xorReg | ldVxDT => exact (s.changedOnly_setV _ _).advance
  case addReg | subReg | shrReg | subnReg | shlReg => exact (s.changedOnly_setResultFlag _ _ _).advance
  case jp | jpV0 | seImm | sneImm | seReg | sneReg | skp | sknp =>
    exact (s.changedOnly_setPc _).mono (by simp [partsWritten])
  case ldI | addIVx | ldFVx => exact (s.changedOnly_setI _).advance.mono (by simp [partsWritten])
  case ldDTVx => exact (s.changedOnly_setDT _).advance.mono (by simp [partsWritten])
  case ldSTVx => exact (s.changedOnly_setST _).advance.mono (by simp [partsWritten])
  case rnd => exact (s.changedOnly_countDraw.comp (State.changedOnly_setV _ _ _)).advance.mono (by simp [partsWritten])
  case storeRegs => exact (s.changedOnly_storeUpTo _).advance.mono (by simp [partsWritten])
  case loadRegs => exact (s.changedOnly_loadUpTo _).advance
  case ldBVx =>
    exact (((s.changedOnly_writeMem _ _).trans (State.changedOnly_writeMem _ _ _)).trans
      (State.changedOnly_writeMem _ _ _)).advance.mono (by simp [partsWritten])
  case cls => exact ((s.changedOnly_setPx _).comp (State.changedOnly_setDF _ _)).advance.mono (by simp [partsWritten])
  case drw =>
    exact (((s.changedOnly_setPx _).comp (State.changedOnly_setV _ _ _)).comp
      (State.changedOnly_setDF _ _)).advance.mono (by simp [partsWritten])

/-- Settles O18, the registers and the other parts by a lemma each. -/
theorem onlyTheNamedStateIsWritten : Obligations.OnlyTheNamedStateIsWritten := fun _ _ _ h =>
  ⟨exec_keeps_regs h, exec_changedOnly h⟩

end Sys2Proof.Machine
end

section
/-!
PROOFS. Reset (spec/10_state.md R35), and what an instruction reads: two states that agree on what it reads stay in
agreement, part by part, over the instruction.
-/

namespace Sys2Proof.Machine

/-! ## Reset (R35, R300) -/

theorem State.doReset_changedOnly (s : State) : ChangedOnly [.draws] (State.resetWith s.font) s.doReset := fun p hp => by
  cases p
  case draws => simp at hp
  case px => exact fun _ _ => rfl
  case mem | regs | stack | key => exact fun _ => rfl
  all_goals rfl

/-- Settles O1, reading each piece of the reset state. -/
theorem resetLeavesTheResetState : Obligations.ResetLeavesTheResetState := by
  refine ⟨fun s => ⟨s.core.doReset, rfl, s.core.doReset_changedOnly⟩, rfl, fun f => ?_⟩
  have hv : ∀ x, (State.resetWith f).getV x = 0 := fun x => Vector.getElem_replicate x.isLt
  have hstack : ∀ k, (State.resetWith f).getStack k = 0 := fun k => Vector.getElem_replicate k.isLt
  have hkey : ∀ k, (State.resetWith f).getKey k = false := fun k => Vector.getElem_replicate k.isLt
  exact ⟨fun _ => rfl, hv, rfl, rfl, hstack, rfl, rfl, rfl, hkey, Display.get_clear, rfl, rfl, rfl⟩

/-- Settles O2: the reset state lists no cell. -/
theorem resetMeetsInvariant : Obligations.ResetMeetsInvariant := ⟨Memory.wf_reset defaultFont, Memory.wf_reset⟩

/-! ## Each named operation carries agreement on a part along -/

section
variable {s s' : State} {p : Part}

theorem Part.same.setV {b b' : Byte} (h : Part.same s s' p) (r : Reg) (hb : p = .regs → b' = b) :
    Part.same (s.setV r b) (s'.setV r b') p := by
  cases p
  case regs => exact fun q => by rw [State.getV_setV, State.getV_setV, hb rfl, h q]
  all_goals exact h

theorem Part.same.setPc {w w' : Word} (h : Part.same s s' p) (hw : w' = w) : Part.same (s.setPc w) (s'.setPc w') p := by
  cases p
  case pc => exact hw
  all_goals exact h

theorem Part.same.setI {w w' : Word} (h : Part.same s s' p) (hw : w' = w) : Part.same (s.setI w) (s'.setI w') p := by
  cases p
  case index => exact hw
  all_goals exact h

theorem Part.same.setDT {b b' : Byte} (h : Part.same s s' p) (hb : b' = b) : Part.same (s.setDT b) (s'.setDT b') p := by
  cases p
  case dt => exact hb
  all_goals exact h

theorem Part.same.setST {b b' : Byte} (h : Part.same s s' p) (hb : b' = b) : Part.same (s.setST b) (s'.setST b') p := by
  cases p
  case st => exact hb
  all_goals exact h

theorem Part.same.setPx {d d' : Display} (h : Part.same s s' p) (hd : p = .px → d' = d) :
    Part.same (s.setPx d) (s'.setPx d') p := by
  cases p
  case px => exact fun x y => congrArg (Display.get · x y) (hd rfl)
  all_goals exact h

theorem Part.same.setDF (h : Part.same s s' p) (b : Bool) : Part.same (s.setDF b) (s'.setDF b) p := by
  cases p
  case df => rfl
  all_goals exact h

theorem Part.same.raise (h : Part.same s s' p) (c : Halt) : Part.same (s.raise c) (s'.raise c) p := by
  cases p
  case halt => rfl
  all_goals exact h

theorem Part.same.countDraw (h : Part.same s s' p) : Part.same s.countDraw s'.countDraw p := by
  cases p
  case draws => exact congrArg (· + 1) h
  all_goals exact h

theorem Part.same.advance (h : Part.same s s' p) : Part.same s.advance s'.advance p := by
  cases p
  case pc => exact congrArg (· + 2) h
  all_goals exact h

theorem Part.same.skipIf {c c' : Bool} (h : Part.same s s' p) (hc : c' = c) : Part.same (s.skipIf c) (s'.skipIf c') p := by
  subst hc
  cases p
  case pc => exact congrArg (· + _) h
  all_goals exact h

theorem Part.same.push {w w' : Word} (h : Part.same s s' p) (k : Fin 16) (hw : w' = w) :
    Part.same (s.push k w) (s'.push k w') p := by
  subst hw
  cases p
  case stack => exact fun q => by rw [State.getStack_push, State.getStack_push, h q]
  case sp => rfl
  all_goals exact h

theorem Part.same.pop (h : Part.same s s' p) (k : Fin 16) : Part.same (s.pop k) (s'.pop k) p := by
  cases p
  case sp => rfl
  all_goals exact h

theorem Part.same.writeMem {a a' : Word} {w w' : Byte} (h : Part.same s s' p) (ha : a' = a) (hw : w' = w) :
    Part.same (s.writeMem a w) (s'.writeMem a' w') p := by
  subst ha hw
  cases p
  case mem => exact fun b => by rw [State.readMem_writeMem, State.readMem_writeMem, h b]
  all_goals exact h

theorem Part.same.setResultFlag {r r' f f' : Byte} (h : Part.same s s' p) (x : Reg) (hr : r' = r) (hf : f' = f) :
    Part.same (s.setResultFlag x r f) (s'.setResultFlag x r' f') p :=
  (h.setV x fun _ => hr).setV vf fun _ => hf

theorem Part.same.storeUpTo (h : Part.same s s' p) (hea : ∀ k, s'.ea k = s.ea k) (hv : ∀ r, s'.getV r = s.getV r)
    (k : Nat) : Part.same (s.storeUpTo k) (s'.storeUpTo k) p := by
  induction k with
  | zero => exact h
  | succ k ih => exact ih.writeMem (hea k) (hv _)

theorem Part.same.loadUpTo (h : Part.same s s' p) (hread : ∀ k, s'.readMem (s'.ea k) = s.readMem (s.ea k)) (k : Nat) :
    Part.same (s.loadUpTo k) (s'.loadUpTo k) p := by
  induction k with
  | zero => exact h
  | succ k ih => exact ih.setV _ fun _ => hread k

/-! ## What the shared operations read -/

theorem State.popSlot_congr (h : s'.sp = s.sp) : s'.popSlot = s.popSlot := by simp only [State.popSlot, h]

theorem State.pushSlot_congr (h : s'.sp = s.sp) : s'.pushSlot = s.pushSlot := by simp only [State.pushSlot, h]

theorem State.firstKey_congr (h : ∀ k, s'.getKey k = s.getKey k) : s'.firstKey = s.firstKey := by
  simp only [State.firstKey, h]

theorem State.ea_congr (h : s'.i = s.i) (k : Nat) : s'.ea k = s.ea k := by simp only [State.ea, h]

/-- Drawing reads nothing of the state but the sprite's cells. -/
theorem drawRows_congr (hread : ∀ k, s'.readMem (s'.ea k) = s.readMem (s.ea k)) (vx vy : Byte) (n : Nat) (c : Canvas) :
    drawRows s' vx vy n c = drawRows s vx vy n c := by
  induction n with
  | zero => rfl
  | succ n ih => rw [drawRows, drawRows, ih, hread]

/-- Displays with equal pixels are equal. -/
theorem Display.ext_get {d d' : Display} (h : ∀ x y, Display.get d' x y = Display.get d x y) : d' = d :=
  Vector.ext fun y hy => Vector.ext fun x hx => h ⟨x, hx⟩ ⟨y, hy⟩

theorem State.sprite_congr (hread : ∀ k, s'.readMem (s'.ea k) = s.readMem (s.ea k)) (hpx : Part.same s s' .px)
    (vx vy : Byte) (n : Nat) : s'.sprite vx vy n = s.sprite vx vy n := by
  rw [State.sprite, State.sprite, drawRows_congr hread, Display.ext_get hpx]

end

/-! ## No instruction reads ST or DF, and DRW alone reads the display (R27, R31, R32, R212) -/

section
variable {s s' t : State} (hs : ChangedOnly [.st, .df, .px] s s')
include hs

/-- Every instruction but DRW keeps two states that differ in ST, DF and pixels alone in agreement on each part they
agree on. -/
theorem exec_congr {i : Instr} (hi : ∀ x y n, i ≠ .drw x y n) (h : exec i s = .next t) :
    ∃ t', exec i s' = .next t' ∧ ∀ p, Part.same s s' p → Part.same t t' p := by
  have hv : ∀ r, s'.getV r = s.getV r := hs .regs (by decide)
  have hm : ∀ a, s'.readMem a = s.readMem a := hs .mem (by decide)
  have hpc : s'.pc = s.pc := hs .pc (by decide)
  have hI : s'.i = s.i := hs .index (by decide)
  have hsp : s'.sp = s.sp := hs .sp (by decide)
  have hdt : s'.dt = s.dt := hs .dt (by decide)
  have hdraws : s'.draws = s.draws := hs .draws (by decide)
  have hstack : ∀ k, s'.getStack k = s.getStack k := hs .stack (by decide)
  have hkey : ∀ k, s'.getKey k = s.getKey k := hs .key (by decide)
  have hea := State.ea_congr hI
  cases i
  case drw x y n => exact absurd rfl (hi x y n)
  case ret =>
    obtain rfl := Host.Outcome.next.inj ((exec_ret s).symm.trans h)
    refine ⟨_, exec_ret s', fun p hp => ?_⟩
    rw [State.popSlot_congr hsp]
    cases s.popSlot with
    | none => exact hp.raise _
    | some k => exact (hp.pop k).setPc (hstack k)
  case call nnn =>
    obtain rfl := Host.Outcome.next.inj ((exec_call nnn s).symm.trans h)
    refine ⟨_, exec_call nnn s', fun p hp => ?_⟩
    rw [State.pushSlot_congr hsp]
    cases s.pushSlot with
    | none => exact hp.raise _
    | some k => exact (hp.push k (by rw [hpc])).setPc rfl
  case ldVxK x =>
    obtain rfl := Host.Outcome.next.inj ((exec_ldVxK x s).symm.trans h)
    refine ⟨_, exec_ldVxK x s', fun p hp => ?_⟩
    rw [State.firstKey_congr hkey]
    cases s.firstKey with
    | none => exact hp
    | some k => exact (hp.setV x fun _ => rfl).advance
  all_goals
    obtain rfl := Host.Outcome.next.inj h
    refine ⟨_, rfl, fun p hp => ?_⟩
  case jp => exact hp.setPc rfl
  case jpV0 => exact hp.setPc (by rw [hv])
  case seImm | sneImm | seReg | sneReg | skp | sknp => exact hp.skipIf (by simp only [hv, hkey])
  case ldImm | addImm | ldReg | orReg | andReg | xorReg => exact (hp.setV _ fun _ => by simp only [hv]).advance
  case ldVxDT => exact (hp.setV _ fun _ => hdt).advance
  case rnd => exact (hp.countDraw.setV _ fun _ => by rw [hdraws]).advance
  case addReg | subReg | shrReg | subnReg | shlReg =>
    exact (hp.setResultFlag _ (by simp only [hv]) (by simp only [hv])).advance
  case ldI | addIVx | ldFVx => exact (hp.setI (by simp only [hI, hv])).advance
  case ldDTVx x => exact (hp.setDT (hv x)).advance
  case ldSTVx x => exact (hp.setST (hv x)).advance
  case ldBVx x =>
    exact (((hp.writeMem (hea 0) (by rw [hv])).writeMem (hea 1) (by rw [hv])).writeMem (hea 2) (by rw [hv])).advance
  case storeRegs => exact (hp.storeUpTo hea hv _).advance
  case loadRegs => exact (hp.loadUpTo (fun k => by rw [hea, hm]) _).advance
  case cls => exact ((hp.setPx fun _ => rfl).setDF true).advance

/-- DRW keeps such states in agreement too, but for VF when their pixels differ. -/
theorem exec_drw_congr {x y : Reg} {n : Fin 16} (h : exec (.drw x y n) s = .next t) :
    ∃ t', exec (.drw x y n) s' = .next t' ∧ RegsKeptBut [15] t t' ∧
      ∀ p, (p = .regs → Part.same s s' .px) → Part.same s s' p → Part.same t t' p := by
  have hv : ∀ r, s'.getV r = s.getV r := hs .regs (by decide)
  have hread : ∀ k, s'.readMem (s'.ea k) = s.readMem (s.ea k) := fun k => by
    rw [State.ea_congr (hs .index (by decide))]
    exact hs .mem (by decide) _
  have hsprite (hpx : Part.same s s' .px) :
      s'.sprite (s'.getV x) (s'.getV y) n.val = s.sprite (s.getV x) (s.getV y) n.val := by
    rw [hv, hv, State.sprite_congr hread hpx]
  obtain rfl := Host.Outcome.next.inj h
  refine ⟨_, rfl, fun r hr => ?_, fun p hregs hp => ?_⟩
  · rw [exec_keeps_regs (i := .drw x y n) rfl r hr, exec_keeps_regs (i := .drw x y n) rfl r hr, hv]
  · exact (((hp.setPx fun e => congrArg Prod.fst (hsprite (e ▸ hp))).setV vf fun e =>
      congrArg (flagByte ·.2) (hsprite (hregs e))).setDF true).advance

/-- One instruction run in two states that differ in ST, DF and pixels alone: agreement is kept part by part, and on every
register but the VF of DRW. -/
theorem exec_agrees {i : Instr} (h : exec i s = .next t) :
    ∃ t', exec i s' = .next t' ∧ (∀ r, (r ≠ 15 ∨ ∀ x y n, i ≠ .drw x y n) → t'.getV r = t.getV r) ∧
      ∀ p, (p = .regs → Part.same s s' .px) → Part.same s s' p → Part.same t t' p := by
  by_cases hi : ∃ x y n, i = .drw x y n
  · obtain ⟨x, y, n, rfl⟩ := hi
    obtain ⟨t', ht', hregs, hparts⟩ := exec_drw_congr hs h
    refine ⟨t', ht', fun r hr => hregs r ?_, hparts⟩
    simpa using hr
  · have hi : ∀ x y n, i ≠ .drw x y n := fun x y n e => hi ⟨x, y, n, e⟩
    obtain ⟨t', ht', hparts⟩ := exec_congr hs hi h
    exact ⟨t', ht', fun r _ => hparts .regs (hs .regs (by decide)) r, fun p _ => hparts p⟩

end

/-- In two runs of one instruction from the same registers ST ends the same (Fx18) or is left as it was in both. -/
theorem exec_st_agrees {i : Instr} {s s' t t' : State} (hv : ∀ r, s'.getV r = s.getV r) (h : exec i s = .next t)
    (h' : exec i s' = .next t') : t'.st = t.st ∨ (t.st = s.st ∧ t'.st = s'.st) := by
  by_cases hm : Part.st ∈ partsWritten i
  · obtain ⟨x, rfl⟩ : ∃ x, i = .ldSTVx x := by cases i <;> simp [partsWritten] at hm ⊢
    obtain rfl := Host.Outcome.next.inj h
    obtain rfl := Host.Outcome.next.inj h'
    exact .inl (hv x)
  · have hkept : Part.st ∉ [.pc, .regs] ++ partsWritten i := by simpa using hm
    exact .inr ⟨exec_changedOnly h .st hkept, exec_changedOnly h' .st hkept⟩

/-- The instructions whose frame has DF, CLS and DRW, raise it. -/
theorem exec_raises_df {i : Instr} {s t : State} (hm : Part.df ∈ partsWritten i) (h : exec i s = .next t) : t.df = true := by
  cases i
  case cls | drw => obtain rfl := Host.Outcome.next.inj h; rfl
  all_goals simp [partsWritten] at hm

/-- In two runs of one instruction DF ends raised in both or is left as it was in both. -/
theorem exec_df_agrees {i : Instr} {s s' t t' : State} (h : exec i s = .next t) (h' : exec i s' = .next t') :
    t'.df = t.df ∨ (t.df = s.df ∧ t'.df = s'.df) := by
  by_cases hm : Part.df ∈ partsWritten i
  · exact .inl ((exec_raises_df hm h').trans (exec_raises_df hm h).symm)
  · have hkept : Part.df ∉ [.pc, .regs] ++ partsWritten i := by simpa using hm
    exact .inr ⟨exec_changedOnly h .df hkept, exec_changedOnly h' .df hkept⟩

/-- Settles O19 from `exec_agrees`, whose one caveat is the VF of a DRW on different displays. -/
theorem displayAndSoundTimerStayUnread : Obligations.DisplayAndSoundTimerStayUnread := by
  intro i s s' t h
  refine ⟨fun hs => ?_, fun hs => ?_, fun hs => ?_⟩
  · obtain ⟨t', ht', -, hparts⟩ := exec_agrees (hs.mono (by decide)) h
    exact ⟨t', ht', fun p hp => hparts p (fun _ => hs .px (by decide)) (hs p hp)⟩
  · obtain ⟨t', ht', hregs, hparts⟩ := exec_agrees (hs.mono (by decide)) h
    refine ⟨t', ht', fun p hp => ?_, hregs⟩
    obtain ⟨hpx, hpr⟩ : p ∉ [.px] ∧ p ≠ .regs := by simpa using hp
    exact hparts p (fun e => absurd e hpr) (hs p hpx)
  · obtain ⟨t', ht', hregs, hparts⟩ := exec_agrees hs h
    refine ⟨t', ht', fun p hp => ?_, hregs, exec_st_agrees (hs .regs (by decide)) h ht', exec_df_agrees h ht'⟩
    obtain ⟨hunread, hpr⟩ : p ∉ [.st, .df, .px] ∧ p ≠ .regs := by simpa [and_assoc] using hp
    exact hparts p (fun e => absurd e hpr) (hs p hunread)

end Sys2Proof.Machine
end

section
/-!
PROOFS. Memory and the instruction stream (spec/20_memory.md R74): what a read finds after Fx55 and after Fx33, for the
cells the instruction stored to and for every other cell, and hence what the next fetch reads.
-/

namespace Sys2Proof.Machine

/-! ## Reads by cell -/

/-- A read depends on the cell alone, not on the address that selects it (R63). -/
theorem State.readMem_congr_cell (s : State) {a b : Word} (h : cellOf a = cellOf b) : s.readMem a = s.readMem b :=
  congrArg (Memory.read s.font s.mem) h

/-- The word fetched at the address after the instruction at `p`, as its two bytes (R64). -/
theorem State.fetch_of_pc {t : State} {p : Word} (hpc : t.pc = p + 2) :
    t.fetch = t.readMem (p + 2) ++ t.readMem (p + 3) := by
  have hlo : p + 2 + 1 = p + 3 := BitVec.add_assoc p 2 1
  rw [State.fetch, wordOfBytes, hpc, hlo]

/-! ## Memory after Fx55 (R194) -/

section
variable {x : Reg} {s t : State} (h : exec (.storeRegs x) s = .next t)
include h

theorem exec_storeRegs_readMem_stored {r : Reg} (hr : r ≤ x) {a : Word} (ha : cellOf (s.ea r.val) = cellOf a) :
    t.readMem a = s.getV r := by
  obtain rfl := Host.Outcome.next.inj h
  have hlt : r.val < x.val + 1 := Nat.lt_succ_of_le hr
  rw [State.readMem_advance, ← State.readMem_congr_cell _ ha, s.readMem_storeUpTo _ x.isLt r hlt]

theorem exec_storeRegs_readMem_kept {a : Word} (ha : ∀ r : Reg, r ≤ x → cellOf (s.ea r.val) ≠ cellOf a) :
    t.readMem a = s.readMem a := by
  obtain rfl := Host.Outcome.next.inj h
  rw [State.readMem_advance]
  refine s.readMem_storeUpTo_of_ne _ a fun j hj => ?_
  have hjx : j ≤ x.val := Nat.le_of_lt_succ hj
  exact (ha ⟨j, hjx.trans_lt x.isLt⟩ hjx).symm

end

/-! ## Memory after Fx33 (R193) -/

theorem toNat_hundreds (b : Byte) : (hundreds b).toNat = decimalDigit 0 b.toNat := by
  have := b.isLt
  rw [hundreds, decimalDigit, BitVec.toNat_ofNat]
  omega

theorem toNat_tens (b : Byte) : (tens b).toNat = decimalDigit 1 b.toNat := by
  rw [tens, decimalDigit, BitVec.toNat_ofNat]
  omega

theorem toNat_units (b : Byte) : (units b).toNat = decimalDigit 2 b.toNat := by
  rw [units, decimalDigit, BitVec.toNat_ofNat]
  omega

section
variable {x : Reg} {s t : State} (h : exec (.ldBVx x) s = .next t)
include h

/-- A read after Fx33, the last of the three stores first. -/
theorem exec_ldBVx_readMem (a : Word) :
    t.readMem a = if cellOf a = cellOf (s.ea 2) then units (s.getV x) else
      if cellOf a = cellOf (s.ea 1) then tens (s.getV x) else
      if cellOf a = cellOf (s.ea 0) then hundreds (s.getV x) else s.readMem a := by
  obtain rfl := Host.Outcome.next.inj h
  simp only [State.readMem_advance, State.readMem_writeMem]

/-- The three cells are distinct, so no digit is stored over another. -/
theorem exec_ldBVx_readMem_stored {k : Nat} (hk : k < 3) {a : Word} (ha : cellOf (s.ea k) = cellOf a) :
    (t.readMem a).toNat = decimalDigit k (s.getV x).toNat := by
  have hcell {j : Nat} (hj : j < 3) : cellOf a = cellOf (s.ea j) ↔ k = j :=
    ⟨fun e => cellOf_add_inj (by omega) (by omega) (ha.trans e), fun e => e ▸ ha.symm⟩
  simp only [exec_ldBVx_readMem h, hcell (j := 0) (by decide), hcell (j := 1) (by decide), hcell (j := 2) (by decide)]
  match k, hk with
  | 0, _ => exact toNat_hundreds _
  | 1, _ => exact toNat_tens _
  | 2, _ => exact toNat_units _

theorem exec_ldBVx_readMem_kept {a : Word} (ha : ∀ k < 3, cellOf (s.ea k) ≠ cellOf a) : t.readMem a = s.readMem a := by
  rw [exec_ldBVx_readMem h, if_neg (ha 2 (by decide)).symm, if_neg (ha 1 (by decide)).symm,
    if_neg (ha 0 (by decide)).symm]

end

/-- Settles O41: the fetched bytes are the reads at pc + 2 and pc + 3, each a stored or a kept one. -/
theorem storesAreFetchedNext : Obligations.StoresAreFetchedNext := by
  intro x s
  constructor
  · obtain ⟨t, ht⟩ : ∃ t, exec (.storeRegs x) s = .next t := ⟨_, rfl⟩
    have hpc : t.pc = s.pc + 2 := pcFollowsTheTable _ _ _ ht
    exact ⟨t, _, _, ht, hpc, State.fetch_of_pc hpc, fun _ hr => exec_storeRegs_readMem_stored ht hr,
      fun _ hr => exec_storeRegs_readMem_stored ht hr, exec_storeRegs_readMem_kept ht, exec_storeRegs_readMem_kept ht⟩
  · obtain ⟨t, ht⟩ : ∃ t, exec (.ldBVx x) s = .next t := ⟨_, rfl⟩
    have hpc : t.pc = s.pc + 2 := pcFollowsTheTable _ _ _ ht
    exact ⟨t, _, _, ht, hpc, State.fetch_of_pc hpc, fun _ hk => exec_ldBVx_readMem_stored ht hk,
      fun _ hk => exec_ldBVx_readMem_stored ht hk, exec_ldBVx_readMem_kept ht, exec_ldBVx_readMem_kept ht⟩

end Sys2Proof.Machine
end

section
/-!
PROOFS. The encoding (spec/30_encoding.md). Decoding undoes encoding; a decoded instruction assembles to its word but for the
bits it does not keep; the decoder refuses exactly the words of R97's list; and a row's mask and match decide decoding,
since the mask covers every digit by which the words of its family are told apart.
-/

namespace Sys2Proof.Machine

/-! ## Decoding an assembled instruction -/

/-- Each format's fields are what it was assembled from (Laws/Decode.lean), so the decoder finds the row it started from. -/
theorem decode_encode (i : Instr) : decode (encode i) = .ok i := by
  cases i with
  | cls | ret => decide
  | _ => simp [encode, decode, decodeAlu, decodeKeypad, decodeMisc]

/-- The two bytes of a word, the more significant first, make the word (R64). -/
theorem wordOfBytes_bytes (w : Word) : wordOfBytes (w.extractLsb' 8 8) (w.extractLsb' 0 8) = w :=
  BitVec.extractLsb'_append_extractLsb' (w := 8) (len := 8)

theorem decodeBytes_encodeBytes (i : Instr) : decodeBytes (encodeBytes i) = .ok (i, []) := by
  simp only [encodeBytes, decodeBytes, wordOfBytes_bytes, decode_encode]

/-- Settles O6, field by field of the assembled word. -/
theorem decodeEncodeRoundTrip : Obligations.DecodeEncodeRoundTrip :=
  fun i => ⟨decode_encode i, decodeBytes_encodeBytes i⟩

/-- Settles O10 by running the decoder on the ten words. -/
theorem sampleWordsDecode : Obligations.SampleWordsDecode := by
  unfold Obligations.SampleWordsDecode
  decide

/-! ## Assembling a decoded word -/

/-- The bits of its word that an instruction keeps: all but the y field of SHR and SHL (R98, D6). -/
def keptMask : Instr → Word
  | .shrReg _ | .shlReg _ => 0xFF0F#16
  | _ => 0xFFFF#16

theorem and_FFFF (w : Word) : w &&& 0xFFFF#16 = w := BitVec.and_allOnes

theorem formatXYN_maskFF0F (op : BitVec 4) (x y : Reg) (n : Fin 16) :
    formatXYN op x y n &&& 0xFF0F#16 = formatXYN op x 0 n := by
  have h : (0xFF0F#16 : Word) = ((0xF#4 ++ 0xF#4) ++ 0#4) ++ 0xF#4 := by decide
  have h4 : ∀ b : BitVec 4, b &&& 0xF#4 = b := by decide
  rw [h, formatXYN, BitVec.and_append, BitVec.and_append, BitVec.and_append]
  simp [h4, formatXYN, regBits]

section
variable {w : Word} {op : BitVec 4} (hop : (opField w).toNat = op.toNat)
include hop

theorem formatA_of_fields : formatA op (nnnField w) = w &&& 0xFFFF#16 := by
  obtain rfl := BitVec.eq_of_toNat_eq hop
  rw [formatA_fields, and_FFFF]

theorem formatXK_of_fields {kk : Byte} (hkk : kkField w = kk) : formatXK op (xField w) kk = w &&& 0xFFFF#16 := by
  obtain rfl := BitVec.eq_of_toNat_eq hop
  rw [← hkk, formatXK_fields, and_FFFF]

theorem formatXYN_of_fields {n : Fin 16} (hn : nField w = n) :
    formatXYN op (xField w) (yField w) n = w &&& 0xFFFF#16 := by
  obtain rfl := BitVec.eq_of_toNat_eq hop
  rw [← hn, formatXYN_fields, and_FFFF]

theorem formatXYN_of_fields_but_y {n : Fin 16} (hn : nField w = n) :
    formatXYN op (xField w) 0 n = w &&& 0xFF0F#16 := by
  obtain rfl := BitVec.eq_of_toNat_eq hop
  rw [← hn, ← formatXYN_maskFF0F _ _ (yField w), formatXYN_fields]

end

section
variable {w : Word} {i : Instr}

theorem encode_of_decodeAlu (hop : (opField w).toNat = 0x8) (h : decodeAlu w = .ok i) : encode i = w &&& keptMask i := by
  unfold decodeAlu at h
  split at h
  case h_7 hn | h_9 hn => cases h; exact formatXYN_of_fields_but_y hop (Fin.ext hn)
  case h_10 => cases h
  all_goals
    rename_i hn
    cases h
    exact formatXYN_of_fields hop (Fin.ext hn)

theorem encode_of_decodeKeypad (hop : (opField w).toNat = 0xE) (h : decodeKeypad w = .ok i) :
    encode i = w &&& keptMask i := by
  unfold decodeKeypad at h
  split_ifs at h with hkk hkk <;> cases h <;> exact formatXK_of_fields hop hkk

theorem encode_of_decodeMisc (hop : (opField w).toNat = 0xF) (h : decodeMisc w = .ok i) :
    encode i = w &&& keptMask i := by
  unfold decodeMisc at h
  split_ifs at h <;> cases h <;> exact formatXK_of_fields hop ‹_›

/-- One case for each family of R94, grouped by the format of its words. -/
theorem encode_of_decode (h : decode w = .ok i) : encode i = w &&& keptMask i := by
  unfold decode at h
  split at h
  case h_1 => split_ifs at h with hw hw <;> cases h <;> rw [hw] <;> rfl
  case h_2 hop | h_3 hop | h_11 hop | h_12 hop => cases h; exact formatA_of_fields hop
  case h_4 hop | h_5 hop | h_7 hop | h_8 hop | h_13 hop => cases h; exact formatXK_of_fields hop rfl
  case h_6 hop | h_10 hop => split_ifs at h with hn; cases h; exact formatXYN_of_fields hop hn
  case h_9 hop => exact encode_of_decodeAlu hop h
  case h_14 hop => cases h; exact formatXYN_of_fields hop rfl
  case h_15 hop => exact encode_of_decodeKeypad hop h
  case h_16 hop => exact encode_of_decodeMisc hop h
  case h_17 => cases h

end

/-- Settles O8: the statement's match is `keptMask` read case by case. -/
theorem decodedWordsReassemble : Obligations.DecodedWordsReassemble := by
  intro w i h
  rw [encode_of_decode h]
  cases i with
  | shrReg | shlReg => rfl
  | _ => exact and_FFFF w

/-! ## The words the decoder refuses (R97) -/

section
variable {w : Word} {e : DecodeError}

theorem decodeAlu_eq_error_iff : decodeAlu w = .error e ↔
    .unknownOpcode w = e ∧ w.toNat % 16 ∈ [0x8, 0x9, 0xA, 0xB, 0xC, 0xD, 0xF] := by
  rw [← val_nField]
  unfold decodeAlu
  split
  case h_10 =>
    have := (nField w).isLt
    simp only [Except.error.injEq, List.mem_cons, List.not_mem_nil, or_false, imp_false] at *
    exact ⟨fun he => ⟨he, by omega⟩, And.left⟩
  all_goals simp [*]

theorem decodeKeypad_eq_error_iff : decodeKeypad w = .error e ↔
    .unknownOpcode w = e ∧ w.toNat % 256 ∉ [0x9E, 0xA1] := by
  simp only [decodeKeypad, kkField_eq_iff]
  split_ifs <;> simp_all

theorem decodeMisc_eq_error_iff : decodeMisc w = .error e ↔
    .unknownOpcode w = e ∧ w.toNat % 256 ∉ [0x07, 0x0A, 0x15, 0x18, 0x1E, 0x29, 0x33, 0x55, 0x65] := by
  simp only [decodeMisc, kkField_eq_iff]
  split_ifs <;> simp_all

/-- The decoder's one error, family by family: in the families not named every word is an instruction. -/
theorem decode_eq_error_iff : decode w = .error e ↔ .unknownOpcode w = e ∧ UnknownByFamily w := by
  simp only [UnknownByFamily, ← toNat_opField]
  unfold decode
  split
  case h_1 hop =>
    simp only [hop]
    split_ifs <;> simp [*]
  case h_6 hop | h_10 hop =>
    simp only [hop, ← val_nField]
    split_ifs <;> simp_all
  case h_9 hop => simpa [hop] using decodeAlu_eq_error_iff
  case h_15 hop => simpa [hop] using decodeKeypad_eq_error_iff
  case h_16 hop => simpa [hop] using decodeMisc_eq_error_iff
  case h_17 =>
    have := (opField w).isLt
    simp only [imp_false] at *
    omega
  all_goals simp [*]

theorem exists_decode_of_known (h : ¬ UnknownByFamily w) : ∃ i, decode w = .ok i := by
  cases hd : decode w with
  | ok i => exact ⟨i, rfl⟩
  | error e => exact absurd (decode_eq_error_iff.mp hd).2 h

end

/-- Settles O9: the list is exactly where the decoder errs, and its one error there names the word. -/
theorem unknownWordsByFamily : Obligations.UnknownWordsByFamily :=
  fun _ => ⟨fun h => decode_eq_error_iff.mpr ⟨rfl, h⟩, exists_decode_of_known⟩

/-! ## The rows of the opcode map (R95) -/

/-- The fixed bits of every instruction's word, from the lemma of its constructor. -/
theorem rowMatch : ∀ i : Instr, Laws.RowMatch.Statement i
  | .cls => Laws.RowMatch.cls
  | .ret => Laws.RowMatch.ret
  | .jp nnn => Laws.RowMatch.jp nnn
  | .call nnn => Laws.RowMatch.call nnn
  | .seImm x kk => Laws.RowMatch.seImm x kk
  | .sneImm x kk => Laws.RowMatch.sneImm x kk
  | .seReg x y => Laws.RowMatch.seReg x y
  | .ldImm x kk => Laws.RowMatch.ldImm x kk
  | .addImm x kk => Laws.RowMatch.addImm x kk
  | .ldReg x y => Laws.RowMatch.ldReg x y
  | .orReg x y => Laws.RowMatch.orReg x y
  | .andReg x y => Laws.RowMatch.andReg x y
  | .xorReg x y => Laws.RowMatch.xorReg x y
  | .addReg x y => Laws.RowMatch.addReg x y
  | .subReg x y => Laws.RowMatch.subReg x y
  | .shrReg x => Laws.RowMatch.shrReg x
  | .subnReg x y => Laws.RowMatch.subnReg x y
  | .shlReg x => Laws.RowMatch.shlReg x
  | .sneReg x y => Laws.RowMatch.sneReg x y
  | .ldI nnn => Laws.RowMatch.ldI nnn
  | .jpV0 nnn => Laws.RowMatch.jpV0 nnn
  | .rnd x kk => Laws.RowMatch.rnd x kk
  | .drw x y n => Laws.RowMatch.drw x y n
  | .skp x => Laws.RowMatch.skp x
  | .sknp x => Laws.RowMatch.sknp x
  | .ldVxDT x => Laws.RowMatch.ldVxDT x
  | .ldVxK x => Laws.RowMatch.ldVxK x
  | .ldDTVx x => Laws.RowMatch.ldDTVx x
  | .ldSTVx x => Laws.RowMatch.ldSTVx x
  | .addIVx x => Laws.RowMatch.addIVx x
  | .ldFVx x => Laws.RowMatch.ldFVx x
  | .ldBVx x => Laws.RowMatch.ldBVx x
  | .storeRegs x => Laws.RowMatch.storeRegs x
  | .loadRegs x => Laws.RowMatch.loadRegs x

/-- The fixed bits of a row are among the bits its instructions keep. -/
theorem keptMask_and_row (i : Instr) : keptMask i &&& i.row.1 = i.row.1 := by
  cases i with
  | shrReg | shlReg => decide +revert
  | _ => exact (BitVec.and_comm _ _).trans (and_FFFF _)

theorem and_row_of_decode {w : Word} {i : Instr} (h : decode w = .ok i) : w &&& i.row.1 = i.row.2 := by
  obtain ⟨hrow, -, -⟩ := rowMatch i
  rwa [encode_of_decode h, BitVec.and_assoc, keptMask_and_row] at hrow

/-- Two rows' matches differ on the bits both masks fix. -/
theorem opcodeRows_disjoint :
    opcodeRows.Pairwise fun p q => ∀ w : Word, ¬(w &&& p.1 = p.2 ∧ w &&& q.1 = q.2) := by
  have hdiffer : opcodeRows.Pairwise fun p q => p.2 &&& q.1 ≠ q.2 &&& p.1 := by decide
  refine hdiffer.imp fun {p q} hne w ⟨hp, hq⟩ => hne ?_
  rw [← hp, ← hq, BitVec.and_assoc, BitVec.and_assoc, BitVec.and_comm p.1]

theorem eq_of_and_rows {p q : Word × Word} (hp : p ∈ opcodeRows) (hq : q ∈ opcodeRows) {w : Word}
    (hpw : w &&& p.1 = p.2) (hqw : w &&& q.1 = q.2) : p = q := by
  have hsymm : Std.Symm fun p q : Word × Word => ∀ w : Word, ¬(w &&& p.1 = p.2 ∧ w &&& q.1 = q.2) :=
    ⟨fun _ _ h w hw => h w hw.symm⟩
  by_contra hne
  exact opcodeRows_disjoint.forall hp hq hne w ⟨hpw, hqw⟩

/-! ## The digits a row's mask covers -/

/-- The mask `m` covers every digit by which the decoder tells the words of family `op` apart (R94). -/
def CoversFamily (m : Word) (op : Nat) : Prop :=
  opField m = 0xF ∧ (op = 0x0 → m = 0xFFFF#16) ∧ ((op = 0x5 ∨ op = 0x9) ∨ op = 0x8 → nField m = 0xF) ∧
    (op = 0xE ∨ op = 0xF → kkField m = 0xFF)

theorem opcodeRows_cover : ∀ row ∈ opcodeRows, CoversFamily row.1 (row.2.toNat / 4096) := by
  simp [CoversFamily, opcodeRows, opField, nField, kkField]

theorem opcodeRows_known : ∀ row ∈ opcodeRows, ¬ UnknownByFamily row.2 := by
  simp [UnknownByFamily, opcodeRows]

section
variable {m : Word} (w : Word)

theorem opField_and_mask (hm : opField m = 0xF) : opField (w &&& m) = opField w := by
  rw [opField, BitVec.extractLsb'_and, ← opField, ← opField, hm]
  exact BitVec.and_allOnes

theorem nField_and_mask (hm : nField m = 0xF) : nField (w &&& m) = nField w := by
  have hand : nField (w &&& m) = nField w &&& nField m := by simp [nField, BitVec.extractLsb'_and]
  have h15 : ∀ n : Fin 16, n &&& 0xF = n := by decide
  rw [hand, hm, h15]

theorem kkField_and_mask (hm : kkField m = 0xFF) : kkField (w &&& m) = kkField w := by
  rw [kkField, BitVec.extractLsb'_and, ← kkField, ← kkField, hm]
  exact BitVec.and_allOnes

end

theorem toNat_kkField (w : Word) : (kkField w).toNat = w.toNat % 256 := ((kkField_eq_iff w _).mp rfl).symm

/-- Clearing operand bits leaves an unknown word unknown. -/
theorem UnknownByFamily.and_mask {w m : Word} (hm : CoversFamily m (w.toNat / 4096)) (h : UnknownByFamily w) :
    UnknownByFamily (w &&& m) := by
  obtain ⟨hmop, hm0, hmn, hmkk⟩ := hm
  have hop : (w &&& m).toNat / 4096 = w.toNat / 4096 := by rw [← toNat_opField, ← toNat_opField, opField_and_mask w hmop]
  have hn (h : nField m = 0xF) : (w &&& m).toNat % 16 = w.toNat % 16 := by
    rw [← val_nField, ← val_nField, nField_and_mask w h]
  have hkk (h : kkField m = 0xFF) : (w &&& m).toNat % 256 = w.toNat % 256 := by
    rw [← toNat_kkField, ← toNat_kkField, kkField_and_mask w h]
  unfold UnknownByFamily at h ⊢
  rw [hop]
  rcases h with ⟨hop0, h⟩ | ⟨hop59, h⟩ | ⟨hop8, h⟩ | ⟨hopE, h⟩ | ⟨hopF, h⟩
  · exact .inl ⟨hop0, by rwa [hm0 hop0, and_FFFF]⟩
  · exact .inr (.inl ⟨hop59, hn (hmn (.inl hop59)) ▸ h⟩)
  · exact .inr (.inr (.inl ⟨hop8, hn (hmn (.inr hop8)) ▸ h⟩))
  · exact .inr (.inr (.inr (.inl ⟨hopE, hkk (hmkk (.inl hopE)) ▸ h⟩)))
  · exact .inr (.inr (.inr (.inr ⟨hopF, hkk (hmkk (.inr hopF)) ▸ h⟩)))

theorem known_of_and_row {row : Word × Word} (hrow : row ∈ opcodeRows) {w : Word} (hw : w &&& row.1 = row.2) :
    ¬ UnknownByFamily w := by
  have hcover := opcodeRows_cover row hrow
  have ⟨hmop, _⟩ := hcover
  have hop : row.2.toNat / 4096 = w.toNat / 4096 := by
    rw [← hw, ← toNat_opField, ← toNat_opField, opField_and_mask w hmop]
  intro hunknown
  have hmatch : UnknownByFamily (w &&& row.1) := hunknown.and_mask (hop ▸ hcover)
  exact opcodeRows_known row hrow (hw ▸ hmatch)

/-- Settles O7: a word that matches a row is known, and the row of what it decodes to is the one row it matches. -/
theorem opcodeRowsDecideDecoding : Obligations.OpcodeRowsDecideDecoding := by
  refine ⟨rfl, fun row hrow w => ⟨fun hw => ?_, ?_⟩, opcodeRows_disjoint⟩
  · obtain ⟨i, hi⟩ := exists_decode_of_known (known_of_and_row hrow hw)
    obtain ⟨-, hmem, -⟩ := rowMatch i
    exact ⟨i, hi, eq_of_and_rows hmem hrow (and_row_of_decode hi) hw⟩
  · rintro ⟨i, hi, rfl⟩
    exact and_row_of_decode hi

end Sys2Proof.Machine
end

section
/-!
PROOFS. The cycle (spec/40_cycle.md): a step with the latch clear is the decoded instruction, what a step returns and what it
never writes, and why no ordinary operation moves a program that has ended.
-/

namespace Sys2Proof.Machine

/-! ## A step with the latch clear (R128) -/

theorem step_of_decode {s : State} {i : Instr} (hh : s.halt = .none) (hd : decode s.fetch = .ok i) : step s = exec i s := by
  simp only [step, hh, hd]

/-- Settles O11: the two bytes, high byte first, are the word the step fetches. -/
theorem stepRunsTheDecodedInstruction : Obligations.StepRunsTheDecodedInstruction := by
  rintro s _ _ i hh rfl rfl hd -
  exact step_of_decode hh hd

/-! ## A word placed at pc (log 26) -/

theorem State.withFetchWord_toNat (s : State) (w : Word) : s.withFetchWord 16 w.toNat = s.placeWord w := by
  rw [State.withFetchWord, Nat.mod_eq_of_lt w.isLt, BitVec.ofNat_toNat, BitVec.setWidth_eq]

section
variable (s : State) (w : Word)

@[simp] theorem State.placeWord_halt : (s.placeWord w).halt = .none := rfl

@[simp] theorem State.placeWord_pc : (s.placeWord w).pc = s.pc := rfl

/-- A read after the placement, the byte stored last first. -/
theorem State.readMem_placeWord (a : Word) :
    (s.placeWord w).readMem a = if cellOf a = cellOf (s.pc + 1) then w.extractLsb' 0 8 else
      if cellOf a = cellOf s.pc then w.extractLsb' 8 8 else s.readMem a := by
  rw [State.placeWord, State.readMem_setHalt, State.readMem_writeMem, State.readMem_writeMem]

/-- The two cells are distinct, so the next fetch reads both bytes of the word. -/
@[simp] theorem State.fetch_placeWord : (s.placeWord w).fetch = w := by
  rw [State.fetch, State.placeWord_pc, State.readMem_placeWord, State.readMem_placeWord, if_pos rfl,
    if_neg (cellOf_succ_ne s.pc).symm, if_pos rfl, wordOfBytes_bytes]

theorem State.changedOnly_placeWord : ChangedOnly [.mem, .halt] s (s.placeWord w) :=
  ((s.changedOnly_writeMem _ _).trans (State.changedOnly_writeMem _ _ _)).comp (State.changedOnly_raise _ _)

end

/-- Settles O12: the next fetch of the placed word decodes back to its instruction. -/
theorem placedInstructionRuns : Obligations.PlacedInstructionRuns := by
  intro s i
  rw [State.withFetchWord_toNat]
  refine ⟨?_, s.placeWord_halt _, s.changedOnly_placeWord _, fun a hhi hlo => ?_⟩
  · exact step_of_decode (s.placeWord_halt _) (by rw [State.fetch_placeWord, decode_encode])
  · rw [State.readMem_placeWord, if_neg hlo, if_neg hhi]

/-! ## The outcome of a step (R125) -/

/-- Every meaning answers a next state. -/
theorem exec_total (i : Instr) (s : State) : ∃ t, exec i s = .next t := by
  cases i
  case ret => exact ⟨_, exec_ret s⟩
  case call nnn => exact ⟨_, exec_call nnn s⟩
  case ldVxK x => exact ⟨_, exec_ldVxK x s⟩
  all_goals exact ⟨_, rfl⟩

theorem CycleOutcome.ofStep_of_exec {s t : State} {i : Instr} (hh : s.halt = .none) (hd : decode s.fetch = .ok i)
    (h : exec i s = .next t) : CycleOutcome.ofStep s = .ofHalt t.halt := by
  simp only [CycleOutcome.ofStep, step_of_decode hh hd, hh, hd, h]

theorem exec_call_halt {nnn : Addr12} {s t : State} (h : exec (.call nnn) s = .next t) :
    t.halt = if s.sp.val = 16 then .stackOverflow else s.halt := by
  obtain rfl := Host.Outcome.next.inj ((exec_call nnn s).symm.trans h)
  by_cases hsp : s.sp.val = 16
  · simp [hsp, State.pushSlot_of_full hsp]
  · simp [hsp, State.pushSlot_of_lt (s := s) (by omega)]

theorem exec_ret_halt {s t : State} (h : exec .ret s = .next t) :
    t.halt = if s.sp.val = 0 then .stackUnderflow else s.halt := by
  obtain rfl := Host.Outcome.next.inj ((exec_ret s).symm.trans h)
  by_cases hsp : s.sp.val = 0
  · simp [hsp, State.popSlot_of_empty hsp]
  · simp [hsp, State.popSlot_of_pos (Nat.pos_of_ne_zero hsp)]

/-- Settles O15: the outcome is the latch after the instruction, which CALL and RET alone may set. -/
theorem stepReturnsItsOutcome : Obligations.StepReturnsItsOutcome := by
  intro s i hh hd
  obtain ⟨t, ht⟩ := exec_total i s
  rw [CycleOutcome.ofStep_of_exec hh hd ht]
  cases i
  case call nnn => rw [exec_call_halt ht, hh]; exact apply_ite CycleOutcome.ofHalt _ _ _
  case ret => rw [exec_ret_halt ht, hh]; exact apply_ite CycleOutcome.ofHalt _ _ _
  all_goals
    have hkept : t.halt = .none := (exec_changedOnly ht .halt (by simp [partsWritten])).trans hh
    rw [hkept]
    rfl

/-! ## What a step never writes (R126) -/

theorem key_notMem_partsWritten (i : Instr) : Part.key ∉ [.pc, .regs] ++ partsWritten i := by
  cases i <;> simp [partsWritten]

theorem dt_notMem_partsWritten {i : Instr} (hi : ∀ x, i ≠ .ldDTVx x) : Part.dt ∉ [.pc, .regs] ++ partsWritten i := by
  cases i
  case ldDTVx x => exact absurd rfl (hi x)
  all_goals simp [partsWritten]

theorem st_notMem_partsWritten {i : Instr} (hi : ∀ x, i ≠ .ldSTVx x) : Part.st ∉ [.pc, .regs] ++ partsWritten i := by
  cases i
  case ldSTVx x => exact absurd rfl (hi x)
  all_goals simp [partsWritten]

theorem exec_keeps_df_raised {i : Instr} {s t : State} (h : exec i s = .next t) (hdf : s.df = true) : t.df = true := by
  by_cases hm : Part.df ∈ partsWritten i
  · exact exec_raises_df hm h
  · exact (exec_changedOnly h .df (by simpa using hm)).trans hdf

theorem Op.tone_notMem_emits_step (s : State) : Event.tone ∉ Op.emits s .step := by simp [Op.emits]

/-- Settles O16: a step stands still or runs one instruction, whose frame names neither Key nor, but for Fx15 and Fx18, a
timer. -/
theorem stepLeavesTimersKeysAndDrawFlag : Obligations.StepLeavesTimersKeysAndDrawFlag := by
  intro s t h
  rcases step_cases h with rfl | ⟨i, -, hd, hi⟩
  · exact ⟨fun _ => rfl, id, Op.tone_notMem_emits_step t, fun _ => rfl, fun _ => rfl⟩
  · have hdec {j : Instr} (hj : decode s.fetch ≠ .ok j) : i ≠ j := fun e => hj (e ▸ hd)
    exact ⟨exec_changedOnly hi .key (key_notMem_partsWritten i), exec_keeps_df_raised hi, Op.tone_notMem_emits_step s,
      fun hdt => exec_changedOnly hi .dt (dt_notMem_partsWritten fun x => hdec (hdt x)),
      fun hst => exec_changedOnly hi .st (st_notMem_partsWritten fun x => hdec (hst x))⟩

/-! ## Three ways of standing still, which end a program (R269, R127) -/

section
variable {s : State}

theorem State.JumpsToItself.step_eq (h : s.JumpsToItself) : step s = .next s := by
  obtain ⟨hh, ⟨nnn, hd, hpc⟩ | ⟨nnn, hd, hpc⟩⟩ := h
  · have htarget : zextAddr nnn = s.pc := BitVec.eq_of_toNat_eq (by rw [toNat_zextAddr, hpc])
    rw [step_of_decode hh hd, exec, execJp, htarget]
    rfl
  · have htarget : zextAddr nnn + zextByte (s.getV 0) = s.pc := BitVec.eq_of_toNat_eq (by
      rw [BitVec.toNat_add, toNat_zextAddr, toNat_zextByte, hpc, Nat.mod_eq_of_lt s.pc.isLt])
    rw [step_of_decode hh hd, exec, execJpV0, htarget]
    rfl

theorem State.AtUnknownOpcode.step_eq (h : s.AtUnknownOpcode) : step s = .next s := by
  obtain ⟨hh, hunknown⟩ := h
  have hd := decode_eq_error_iff.mpr ⟨rfl, hunknown⟩
  simp only [step, hh, hd, State.unknownOpcode_eq]

theorem State.Halted.step_eq (h : s.Halted) : step s = .next s := by
  cases hh : s.halt with
  | none => exact absurd hh h
  | stackOverflow | stackUnderflow => simp only [step, hh, State.whileHalted_eq]

theorem State.Ended.step_eq (h : s.Ended) : step s = .next s := by
  rcases h with hjump | hunknown | hlatch
  · exact hjump.step_eq
  · exact hunknown.step_eq
  · exact hlatch.step_eq

end

/-! ## The end of a program rests on no timer, key or draw-flag -/

section
variable {s t : State} (h : ChangedOnly [.dt, .st, .key, .df] s t)
include h

theorem State.fetch_of_changedOnly : t.fetch = s.fetch := by
  have hpc : t.pc = s.pc := h .pc (by decide)
  have hmem : ∀ a, t.readMem a = s.readMem a := h .mem (by decide)
  rw [State.fetch, State.fetch, hpc, hmem, hmem]

theorem State.JumpsToItself.of_changedOnly (hs : s.JumpsToItself) : t.JumpsToItself := by
  have hhalt : t.halt = s.halt := h .halt (by decide)
  have hpc : t.pc = s.pc := h .pc (by decide)
  have hv : ∀ r, t.getV r = s.getV r := h .regs (by decide)
  rw [State.JumpsToItself] at hs ⊢
  rwa [hhalt, hpc, hv, State.fetch_of_changedOnly h]

theorem State.Ended.of_changedOnly (hs : s.Ended) : t.Ended := by
  have hhalt : t.halt = s.halt := h .halt (by decide)
  rcases hs with hjump | ⟨hh, hunknown⟩ | hlatch
  · exact .inl (hjump.of_changedOnly h)
  · exact .inr (.inl ⟨hhalt.trans hh, State.fetch_of_changedOnly h ▸ hunknown⟩)
  · exact .inr (.inr fun hclear => hlatch (hhalt.symm.trans hclear))

end

/-! ## Ordinary operations after the end (R271) -/

theorem State.changedOnly_setKey (s : State) (k : Key) (down : Bool) : ChangedOnly [.key] s (s.setKey k down) := fun p hp => by
  cases p <;> simp_all [Part.same]

theorem State.changedOnly_tick (s : State) : ChangedOnly [.dt, .st] s s.tick := by
  cases hh : s.halt with
  | none =>
    simp only [State.tick, hh]
    exact (s.changedOnly_setDT _).comp (State.changedOnly_setST _ _)
  | stackOverflow | stackUnderflow =>
    simp only [State.tick, hh]
    exact ChangedOnly.refl _ _

theorem Op.perform_of_ended {op : Op} {s : Session} (hend : s.core.Ended) (hp : s.phase ≠ .beforeReset)
    (hop : op.ordinary = true) :
    ∃ t, op.perform s = .next t ∧ t.phase ≠ .beforeReset ∧ ChangedOnly [.dt, .st, .key, .df] s.core t.core := by
  cases op with
  | step => exact ⟨_, Session.step_next hp hend.step_eq, nofun, ChangedOnly.refl _ _⟩
  | tick => exact ⟨_, rfl, hp, s.core.changedOnly_tick.mono (by decide)⟩
  | keyWrite k down => exact ⟨_, rfl, hp, (s.core.changedOnly_setKey k down).mono (by decide)⟩
  | drawFlagClear => exact ⟨_, rfl, hp, (s.core.changedOnly_setDF false).mono (by decide)⟩
  | reset | load => cases hop

theorem runOps_of_ended {ops : List Op} {s : Session} (hend : s.core.Ended) (hp : s.phase ≠ .beforeReset)
    (hops : ∀ op ∈ ops, op.ordinary = true) :
    ∃ t, runOps ops s = .next t ∧ ChangedOnly [.dt, .st, .key, .df] s.core t.core := by
  induction ops generalizing s with
  | nil => exact ⟨s, rfl, ChangedOnly.refl _ _⟩
  | cons op ops ih =>
    obtain ⟨hop, hrest⟩ := List.forall_mem_cons.mp hops
    obtain ⟨u, hu, hup, hsu⟩ := Op.perform_of_ended hend hp hop
    obtain ⟨t, ht, hut⟩ := ih (hend.of_changedOnly hsu) hup hrest
    exact ⟨t, by simp only [runOps, hu, ht], hsu.trans hut⟩

/-- Settles O54: the run keeps every part on which the end of the program rests. -/
theorem anEndedProgramStaysEnded : Obligations.AnEndedProgramStaysEnded := by
  intro ops s hend hp hops
  obtain ⟨t, ht, hst⟩ := runOps_of_ended hend hp hops
  exact ⟨t, ht, hend.of_changedOnly hst, State.JumpsToItself.of_changedOnly hst, hst⟩

end Sys2Proof.Machine
end

section
/-!
PROOFS. Control transfer (spec/41_flow.md): the jumps, CALL and RET on a stack with room, the register skips, and nested calls.
A return undoes its call because the slots below sp outlive every call and return made above them.
-/

namespace Sys2Proof.Machine

/-! ## Jumps (R141, R147) -/

theorem toNat_zextAddr_add_zextByte (nnn : Addr12) (b : Byte) :
    (zextAddr nnn + zextByte b).toNat = nnn.toNat + b.toNat := by
  have hn := nnn.isLt
  have hb := b.isLt
  rw [BitVec.toNat_add, toNat_zextAddr, toNat_zextByte, Nat.mod_eq_of_lt (by omega)]

/-- Settles O22: both jumps write pc alone, and a 12-bit and an 8-bit number add up to at most 0x10FE. -/
theorem jumpsSetPc : Obligations.JumpsSetPc := by
  intro nnn s
  refine ⟨⟨decode_encode (.jp nnn), _, rfl, toNat_zextAddr nnn, s.changedOnly_setPc _⟩,
    decode_encode (.jpV0 nnn), _, rfl, toNat_zextAddr_add_zextByte _ _, ?_, s.changedOnly_setPc _⟩
  have hn := nnn.isLt
  have hv := (s.getV 0).isLt
  rw [State.setPc_pc, toNat_zextAddr_add_zextByte]
  omega

/-! ## CALL and RET on a stack with room (R142, R140) -/

section
variable {s : State}

theorem exec_call_of_lt (nnn : Addr12) (h : s.sp.val < 16) :
    exec (.call nnn) s = .next ((s.push ⟨s.sp.val, h⟩ (s.pc + 2)).setPc (zextAddr nnn)) := by
  rw [exec_call, State.pushSlot_of_lt h, Option.elim_some]

theorem exec_ret_of_succ {k : Fin 16} (h : s.sp.val = k.val + 1) :
    exec .ret s = .next ((s.pop k).setPc (s.getStack k)) := by
  rw [exec_ret, State.popSlot_of_succ h, Option.elim_some]

theorem State.getStack_push_self (k : Fin 16) (w : Word) : (s.push k w).getStack k = w := by
  rw [State.getStack_push, if_pos rfl]

theorem State.getStack_push_ne {k q : Fin 16} (h : q.val ≠ k.val) (w : Word) : (s.push k w).getStack q = s.getStack q := by
  rw [State.getStack_push, if_neg fun e => h (congrArg Fin.val e)]

end

/-- Settles O23: `push` writes the one slot at sp, and pc is set after it. -/
theorem callPushesTheReturnAddress : Obligations.CallPushesTheReturnAddress := fun nnn s =>
  ⟨decode_encode (.call nnn), fun h => ⟨_, exec_call_of_lt nnn h, State.getStack_push_self _ _, rfl, toNat_zextAddr nnn,
    fun _ hk => State.getStack_push_ne hk _, ((s.changedOnly_push _ _).setPc _).mono (by decide)⟩⟩

/-- Settles O24: `pop` moves sp alone, and pc is set from the slot. -/
theorem returnPopsThePc : Obligations.ReturnPopsThePc :=
  ⟨decode_encode .ret, fun s k h =>
    ⟨_, exec_ret_of_succ h, rfl, rfl, ((s.changedOnly_pop k).setPc _).mono (by decide)⟩⟩

/-! ## Skips on registers (R143 to R146) -/

theorem exec_skip {i : Instr} {s : State} {c : Bool} {P : Prop} [Decidable P] (hi : exec i s = .next (s.skipIf c))
    (hc : c = true ↔ P) :
    ∃ t, exec i s = .next t ∧ t.pc = (if P then s.pc + 4 else s.pc + 2) ∧ ChangedOnly [.pc] s t :=
  ⟨_, hi, s.skipIf_pc_of_iff hc, s.changedOnly_setPc _⟩

theorem exec_skip_unless {i : Instr} {s : State} {c : Bool} {P : Prop} [Decidable P]
    (hi : exec i s = .next (s.skipIf c)) (hc : c = true ↔ ¬P) :
    ∃ t, exec i s = .next t ∧ t.pc = (if P then s.pc + 2 else s.pc + 4) ∧ ChangedOnly [.pc] s t := by
  simpa only [ite_not] using exec_skip hi hc

/-- Settles O27: SE skips under its equality, SNE unless it holds. -/
theorem registerSkips : Obligations.RegisterSkips := fun x y kk _ =>
  ⟨⟨decode_encode (.seImm x kk), exec_skip rfl beq_iff_eq⟩,
    ⟨decode_encode (.sneImm x kk), exec_skip_unless rfl bne_iff_ne⟩,
    ⟨decode_encode (.seReg x y), exec_skip rfl beq_iff_eq⟩,
    ⟨decode_encode (.sneReg x y), exec_skip_unless rfl bne_iff_ne⟩⟩

/-! ## Lists of instructions -/

theorem execAll_cons_of_next {i : Instr} {s t : State} (h : exec i s = .next t) (is : List Instr) :
    execAll (i :: is) s = execAll is t := by
  simp only [execAll, h]

theorem execAll_append_of_next {is : List Instr} {s t : State} (h : execAll is s = .next t) (js : List Instr) :
    execAll (is ++ js) s = execAll js t := by
  induction is generalizing s with
  | nil => rw [List.nil_append, Host.Outcome.next.inj h]
  | cons i is ih =>
    obtain ⟨u, hu⟩ := exec_total i s
    rw [execAll_cons_of_next hu] at h
    rw [List.cons_append, execAll_cons_of_next hu, ih h]

/-- A part that is as it was need not be listed. -/
theorem ChangedOnly.of_same {p : Part} {ps : List Part} {s t : State} (h : ChangedOnly (p :: ps) s t)
    (hp : Part.same s t p) : ChangedOnly ps s t := fun q hq => by
  by_cases hqp : q = p
  · exact hqp ▸ hp
  · exact h q (by simp [hqp, hq])

/-! ## Nested calls (R142, R140, R26) -/

theorem execAll_calls (targets : List Addr12) {s : State} (h : s.sp.val + targets.length ≤ 16) :
    ∃ t, execAll (targets.map Instr.call) s = .next t ∧ t.sp.val = s.sp.val + targets.length ∧
      ChangedOnly [.stack, .sp, .pc] s t := by
  induction targets generalizing s with
  | nil => exact ⟨s, rfl, rfl, ChangedOnly.refl _ _⟩
  | cons nnn targets ih =>
    rw [List.length_cons] at h ⊢
    obtain ⟨-, hcall⟩ := callPushesTheReturnAddress nnn s
    obtain ⟨r, hr, -, hsp, -, -, hsr⟩ := hcall (by omega)
    obtain ⟨t, ht, htsp, hrt⟩ := ih (s := r) (by omega)
    exact ⟨t, by rw [List.map_cons, execAll_cons_of_next hr, ht], by omega, hsr.trans hrt⟩

/-- The returns that match a list of calls. That they keep the slots below sp is what the induction turns on: the slot of the
first call is below sp for all the calls after it, so the last return finds the first call's address there. -/
theorem execAll_rets_after_calls (targets : List Addr12) {s t : State} (h : s.sp.val + targets.length ≤ 16)
    (ht : execAll (targets.map Instr.call) s = .next t) :
    ∃ u, execAll (List.replicate targets.length .ret) t = .next u ∧ ChangedOnly [.pc, .stack] s u ∧
      (∀ k : Fin 16, k.val < s.sp.val → u.getStack k = s.getStack k) ∧ (targets ≠ [] → u.pc = s.pc + 2) := by
  induction targets generalizing s with
  | nil =>
    obtain rfl := Host.Outcome.next.inj ht
    exact ⟨s, rfl, ChangedOnly.refl _ _, fun _ _ => rfl, fun hne => absurd rfl hne⟩
  | cons nnn targets ih =>
    rw [List.length_cons] at h ⊢
    have hlt : s.sp.val < 16 := by omega
    obtain ⟨-, hcall⟩ := callPushesTheReturnAddress nnn s
    obtain ⟨r, hr, hpushed, hrsp, -, hrslots, hsr⟩ := hcall hlt
    rw [List.map_cons, execAll_cons_of_next hr] at ht
    obtain ⟨u, hu, hru, huslots, -⟩ := ih (by omega) ht
    have husp : u.sp = r.sp := hru .sp (by decide)
    obtain ⟨-, hret⟩ := returnPopsThePc
    obtain ⟨v, hv, hvsp, hvpc, huv⟩ := hret u ⟨s.sp.val, hlt⟩ (by rw [husp, hrsp])
    have hvstack : ∀ k, v.getStack k = u.getStack k := huv .stack (by decide)
    refine ⟨v, ?_, ?_, fun k hk => ?_, fun _ => ?_⟩
    · rw [List.replicate_succ', execAll_append_of_next hu, execAll_cons_of_next hv, execAll]
    · exact (((hsr.comp hru).comp huv).mono (by decide)).of_same (p := .sp) (Fin.ext hvsp)
    · rw [hvstack, huslots k (by omega), hrslots k (by omega)]
    · rw [hvpc, huslots _ (by simp [hrsp]), hpushed]

/-- Settles O26: the calls and their returns by a lemma each; a call at depth 16 finds no slot. -/
theorem nestedCallsReturn : Obligations.NestedCallsReturn := by
  intro targets s h
  obtain ⟨t, ht, hsp, hst⟩ := execAll_calls targets h
  obtain ⟨u, hu, hsu, -, hpc⟩ := execAll_rets_after_calls targets h ht
  refine ⟨t, ht, hsp, hst .halt (by decide), fun hfull nnn => ?_, u, hu, hsu, hpc⟩
  obtain ⟨v, hv⟩ := exec_total (.call nnn) t
  exact ⟨v, hv, by rw [exec_call_halt hv, if_pos hfull]⟩

end Sys2Proof.Machine
end

section
/-!
PROOFS. Register load, arithmetic, logic and shift (spec/42_alu.md). Every instruction of the family ends in one of two writes: a
result into Vx, or a result into Vx and then a flag into VF. What a write leaves in the registers and its frame are said
once for each; what is left of an instruction is its arithmetic on bytes.
-/

namespace Sys2Proof.Machine

/-! ## The two ways an instruction of the family ends (R171) -/

section
variable {s : State} {x : Reg} {r f : Byte}

theorem State.getV_setV_advance : (s.setV x r).advance.getV x = r := s.getV_setV_self x r

theorem State.setV_advance_frame :
    (s.setV x r).advance.pc = s.pc + 2 ∧ RegsKeptBut [x] s (s.setV x r).advance ∧
      ChangedOnly [.pc, .regs] s (s.setV x r).advance :=
  ⟨rfl, s.regsKeptBut_setV x r, (s.changedOnly_setV x r).advance⟩

/-- The flag is written last, so it stands whatever x is (D7). -/
theorem State.getV_vf_setResultFlag_advance : (s.setResultFlag x r f).advance.getV 15 = f :=
  State.getV_setV_self _ vf f

theorem State.getV_setResultFlag_advance (hx : x ≠ 15) : (s.setResultFlag x r f).advance.getV x = r :=
  (State.getV_setV_ne _ hx f).trans (s.getV_setV_self x r)

theorem State.setResultFlag_advance_frame :
    (s.setResultFlag x r f).advance.pc = s.pc + 2 ∧ RegsKeptBut [x, 15] s (s.setResultFlag x r f).advance ∧
      ChangedOnly [.pc, .regs] s (s.setResultFlag x r f).advance :=
  ⟨rfl, s.regsKeptBut_setResultFlag x r f, (s.changedOnly_setResultFlag x r f).advance⟩

end

/-! ## Flags and results as numbers (R166 to R170, R172) -/

section
variable (a b : Byte)

theorem toNat_carry : (carry a b).toNat = if a.toNat + b.toNat > 255 then 1 else 0 := by
  simp only [carry, toNat_flagByte, decide_eq_true_eq]

theorem toNat_notBorrow : (notBorrow a b).toNat = if a.toNat ≥ b.toNat then 1 else 0 := by
  simp only [notBorrow, toNat_flagByte, decide_eq_true_eq]

theorem toNat_lowBit : (lowBit a).toNat = a.toNat % 2 := by
  simp only [lowBit, toNat_flagByte, BitVec.getLsbD, Nat.testBit_zero, decide_eq_true_eq]
  split <;> omega

theorem toNat_highBit : (highBit a).toNat = a.toNat / 128 := by
  have ha := a.isLt
  simp only [highBit, toNat_flagByte, BitVec.getLsbD, Nat.testBit_eq_decide_div_mod_eq, decide_eq_true_eq]
  split <;> omega

/-- The difference wraps below 0 as the remainder of an integer does. -/
theorem toNat_sub_eq_emod : ((a - b).toNat : Int) = ((a.toNat : Int) - b.toNat) % 256 := by
  have hb := b.isLt
  rw [BitVec.toNat_sub]
  omega

theorem toNat_shiftRight_one : (a >>> 1).toNat = a.toNat / 2 := by
  rw [BitVec.toNat_ushiftRight, Nat.shiftRight_one]

theorem toNat_shiftLeft_one : (a <<< 1).toNat = 2 * a.toNat % 256 := by
  rw [BitVec.toNat_shiftLeft, Nat.shiftLeft_eq, pow_one, Nat.mul_comm]

end

/-! ## Shifts for every y (R98, D6) -/

theorem decode_shrReg (x y : Reg) : decode (formatXYN 0x8#4 x y 0x6) = .ok (.shrReg x) := by
  simp [decode, decodeAlu]

theorem decode_shlReg (x y : Reg) : decode (formatXYN 0x8#4 x y 0xE) = .ok (.shlReg x) := by
  simp [decode, decodeAlu]

/-! ## The instructions (R160 to R170) -/

/-- Settles O28: each load is one write of Vx. -/
theorem loadsSetTheRegister : Obligations.LoadsSetTheRegister := fun x y kk _ =>
  ⟨⟨decode_encode (.ldImm x kk), _, rfl, State.getV_setV_advance, State.setV_advance_frame⟩,
    ⟨decode_encode (.ldReg x y), _, rfl, State.getV_setV_advance, State.setV_advance_frame⟩⟩

/-- Settles O29: the one register written is Vx, and byte addition is mod 256. -/
theorem addImmediateSetsNoFlag : Obligations.AddImmediateSetsNoFlag := fun x kk _ =>
  ⟨decode_encode (.addImm x kk), _, rfl, by rw [State.getV_setV_advance, BitVec.toNat_add], State.setV_advance_frame⟩

/-- Settles O30: each of the three writes Vx alone, with a word operation that works bit by bit. -/
theorem logicLeavesTheFlag : Obligations.LogicLeavesTheFlag := fun x y _ =>
  ⟨⟨decode_encode (.orReg x y), _, rfl, fun _ _ => by rw [State.getV_setV_advance, BitVec.getLsbD_or],
      State.setV_advance_frame⟩,
    ⟨decode_encode (.andReg x y), _, rfl, fun _ _ => by rw [State.getV_setV_advance, BitVec.getLsbD_and],
      State.setV_advance_frame⟩,
    ⟨decode_encode (.xorReg x y), _, rfl, fun _ _ => by rw [State.getV_setV_advance, BitVec.getLsbD_xor],
      State.setV_advance_frame⟩⟩

/-- Settles O31: the sum is written first and the carry last. -/
theorem addSetsCarry : Obligations.AddSetsCarry := fun x y _ =>
  ⟨decode_encode (.addReg x y), _, rfl,
    fun hx => by rw [State.getV_setResultFlag_advance hx, BitVec.toNat_add],
    by rw [State.getV_vf_setResultFlag_advance, toNat_carry], State.setResultFlag_advance_frame⟩

/-- Settles O32: SUBN is SUB with the operands exchanged, in the difference and in the flag. -/
theorem subtractSetsNotBorrow : Obligations.SubtractSetsNotBorrow := fun x y _ =>
  ⟨⟨decode_encode (.subReg x y), _, rfl,
      fun hx => by rw [State.getV_setResultFlag_advance hx, toNat_sub_eq_emod],
      by rw [State.getV_vf_setResultFlag_advance, toNat_notBorrow], State.setResultFlag_advance_frame⟩,
    ⟨decode_encode (.subnReg x y), _, rfl,
      fun hx => by rw [State.getV_setResultFlag_advance hx, toNat_sub_eq_emod],
      by rw [State.getV_vf_setResultFlag_advance, toNat_notBorrow], State.setResultFlag_advance_frame⟩⟩

/-- Settles O33: the decoder drops y, and the bit shifted out is read from the old Vx. -/
theorem shiftsSetTheBitShiftedOut : Obligations.ShiftsSetTheBitShiftedOut := fun x y _ =>
  ⟨⟨decode_shrReg x y, _, rfl,
      fun hx => by rw [State.getV_setResultFlag_advance hx, toNat_shiftRight_one],
      by rw [State.getV_vf_setResultFlag_advance, toNat_lowBit], State.setResultFlag_advance_frame⟩,
    ⟨decode_shlReg x y, _, rfl,
      fun hx => by rw [State.getV_setResultFlag_advance hx, toNat_shiftLeft_one],
      by rw [State.getV_vf_setResultFlag_advance, toNat_highBit], State.setResultFlag_advance_frame⟩⟩

end Sys2Proof.Machine
end

section
/-!
PROOFS. Index register and memory transfer (spec/43_index_memory.md). Every instruction of the family ends with pc + 2 and, but
for Fx65, writes no register; the reads after Fx55 and Fx33 are those of the section on memory above, and what Fx65 leaves in
a register is said once here.
-/

namespace Sys2Proof.Machine

/-- The frame of an instruction that may write no register. -/
theorem exec_changedOnly_of_no_regs {i : Instr} {s t : State} (h : exec i s = .next t) (hi : regsWritten i = []) :
    ChangedOnly (.pc :: partsWritten i) s t := by
  have hregs : Part.same s t .regs := fun r => exec_keeps_regs h r (by simp [hi])
  have hframe : ChangedOnly (.regs :: .pc :: partsWritten i) s t := (exec_changedOnly h).mono (by simp [or_left_comm])
  exact hframe.of_same hregs

/-! ## The index register (R190 to R192) -/

theorem toNat_glyphAddr (b : Byte) : (glyphAddr b).toNat = b.toNat * 5 := by
  have hb := b.isLt
  rw [glyphAddr, BitVec.toNat_ofNat, Nat.mod_eq_of_lt (by omega)]

/-- Settles O34: nnn is zero-extended, and the sum of two words is mod 65536. -/
theorem indexLoadAndAdd : Obligations.IndexLoadAndAdd := fun nnn x _ =>
  ⟨⟨decode_encode (.ldI nnn), _, rfl, toNat_zextAddr nnn, rfl, exec_changedOnly_of_no_regs (i := .ldI nnn) rfl rfl⟩,
    decode_encode (.addIVx x), _, rfl, by rw [State.advance_i, State.setI_i, BitVec.toNat_add, toNat_zextByte], rfl,
    exec_changedOnly_of_no_regs (i := .addIVx x) rfl rfl⟩

/-- Settles O35: five times a byte fits 16 bits, so nothing of the product is lost. -/
theorem fontLoadPointsAtTheGlyph : Obligations.FontLoadPointsAtTheGlyph := fun x s =>
  ⟨decode_encode (.ldFVx x), _, rfl, toNat_glyphAddr (s.getV x), rfl,
    exec_changedOnly_of_no_regs (i := .ldFVx x) rfl rfl⟩

/-! ## Effective addresses (R196, R63) -/

/-- Settles O36: 4096 divides 65536, so the 16-bit sum wraps as the cell does; offsets below 4096 select distinct cells. -/
theorem effectiveAddressesWrap : Obligations.EffectiveAddressesWrap := fun s k =>
  ⟨cellOf_add s.i k, fun _ hj hk h => cellOf_add_inj (by omega) (by omega) h⟩

/-! ## Stores to memory (R193, R194) -/

/-- A byte has at most three decimal digits, so its first needs no remainder. -/
theorem decimalDigit_zero_of_byte (b : Byte) : decimalDigit 0 b.toNat = b.toNat / 100 := by
  have hb := b.isLt
  rw [decimalDigit]
  omega

theorem decimalDigit_one (n : Nat) : decimalDigit 1 n = n / 10 % 10 := rfl

theorem decimalDigit_two (n : Nat) : decimalDigit 2 n = n % 10 := congrArg (· % 10) (Nat.div_one n)

/-- Settles O37: the cell at offset k holds digit k, and every other cell is kept. -/
theorem bcdStoresDecimalDigits : Obligations.BcdStoresDecimalDigits := by
  intro x s
  obtain ⟨t, ht⟩ := exec_total (.ldBVx x) s
  have hdigit {k : Nat} (hk : k < 3) : (t.readMem (s.ea k)).toNat = decimalDigit k (s.getV x).toNat :=
    exec_ldBVx_readMem_stored ht hk rfl
  exact ⟨decode_encode (.ldBVx x), t, ht, (hdigit (by decide)).trans (decimalDigit_zero_of_byte _),
    (hdigit (by decide)).trans (decimalDigit_one _), (hdigit (by decide)).trans (decimalDigit_two _),
    fun _ ha => exec_ldBVx_readMem_kept ht fun k hk => (ha k hk).symm, pcFollowsTheTable _ _ _ ht,
    exec_changedOnly_of_no_regs ht rfl⟩

/-- Settles O38: the cell at offset r holds Vr, and every other cell is kept. -/
theorem storeRegistersToMemory : Obligations.StoreRegistersToMemory := by
  intro x s
  obtain ⟨t, ht⟩ := exec_total (.storeRegs x) s
  exact ⟨decode_encode (.storeRegs x), t, ht, fun _ hr => exec_storeRegs_readMem_stored ht hr rfl,
    fun _ ha => exec_storeRegs_readMem_kept ht fun r hr => (ha r.val hr).symm, pcFollowsTheTable _ _ _ ht,
    exec_changedOnly_of_no_regs ht rfl⟩

/-! ## Loads from memory (R195) -/

section
variable {x : Reg} {s t : State} (h : exec (.loadRegs x) s = .next t)
include h

theorem exec_loadRegs_getV (r : Reg) : t.getV r = if r ≤ x then s.readMem (s.ea r.val) else s.getV r := by
  obtain rfl := Host.Outcome.next.inj h
  simp only [State.getV_advance, s.getV_loadUpTo _ x.isLt, Nat.lt_succ_iff, Fin.le_def]

theorem exec_loadRegs_getV_loaded {r : Reg} (hr : r ≤ x) : t.getV r = s.readMem (s.ea r.val) := by
  rw [exec_loadRegs_getV h, if_pos hr]

theorem exec_loadRegs_getV_kept {r : Reg} (hr : x < r) : t.getV r = s.getV r := by
  rw [exec_loadRegs_getV h, if_neg (not_le_of_gt hr)]

end

/-- Settles O39: every register up to Vx is loaded and every higher one kept. -/
theorem loadRegistersFromMemory : Obligations.LoadRegistersFromMemory := by
  intro x s
  obtain ⟨t, ht⟩ := exec_total (.loadRegs x) s
  exact ⟨decode_encode (.loadRegs x), t, ht, fun _ => exec_loadRegs_getV_loaded ht, fun _ => exec_loadRegs_getV_kept ht,
    pcFollowsTheTable _ _ _ ht, exec_changedOnly ht⟩

/-- Settles O40: with the same I the load reads the very cells the store wrote. -/
theorem storedRegistersLoadBack : Obligations.StoredRegistersLoadBack := by
  intro x s t s' ht hmem hI
  obtain ⟨u, hu⟩ := exec_total (.loadRegs x) s'
  refine ⟨u, hu, fun r hr => ?_⟩
  calc u.getV r
    _ = s'.readMem (s'.ea r.val) := exec_loadRegs_getV_loaded hu hr
    _ = s'.readMem (s.ea r.val) := by rw [State.ea_congr hI]
    _ = t.readMem (s.ea r.val) := hmem _
    _ = s.getV r := exec_storeRegs_readMem_stored ht hr rfl

end Sys2Proof.Machine
end

section
/-!
PROOFS. The display (spec/44_display.md). What a sprite leaves is said by Laws/Display.lean in the drawing's own terms and said
here once in the terms of the claims: covered pixels toggled, the others kept, VF the collision. A sprite covers the same
pixels wherever the same cells are drawn at the same coordinates, and a pixel toggled twice is as it was.
-/

namespace Sys2Proof.Machine

/-! ## Clearing (R210) -/

/-- Settles O42: every pixel of the clear display is clear, and CLS writes no register. -/
theorem clearScreen : Obligations.ClearScreen :=
  ⟨decode_encode .cls, fun _ => ⟨_, rfl, Display.get_clear, rfl, rfl, exec_changedOnly_of_no_regs (i := .cls) rfl rfl⟩⟩

/-! ## What a sprite covers (R211) -/

/-- Covering reads nothing of the state but the sprite's cells. -/
theorem State.spriteCovers_congr {s s' : State} {n : Nat}
    (hread : ∀ r < n, s'.readMem (s'.ea r) = s.readMem (s.ea r)) (vx vy : Byte) (X : Fin 64) (Y : Fin 32) :
    s'.spriteCovers vx vy n X Y ↔ s.spriteCovers vx vy n X Y :=
  exists_congr fun r => and_congr_right fun hr => by rw [hread r hr]

/-- Fewer than 32 rows fall on distinct display rows, so each covered pixel is toggled once (R212). -/
theorem State.sprite_spec (s : State) (vx vy : Byte) (n : Fin 16) :
    (∀ X Y, s.spriteCovers vx vy n.val X Y →
      Display.get (s.sprite vx vy n.val).1 X Y = !Display.get s.px X Y) ∧
    (∀ X Y, ¬ s.spriteCovers vx vy n.val X Y →
      Display.get (s.sprite vx vy n.val).1 X Y = Display.get s.px X Y) ∧
    ((s.sprite vx vy n.val).2 = true ↔ ∃ X Y, s.spriteCovers vx vy n.val X Y ∧ Display.get s.px X Y = true) := by
  have hn : n.val ≤ 32 := by omega
  simpa [State.sprite, State.spriteCovers_iff] using drawRows_spec s vx vy n.val hn (s.px, false)

/-! ## DRW (R212) -/

section
variable {x y : Reg} {n : Fin 16} {s t : State} (h : exec (.drw x y n) s = .next t)
include h

theorem exec_drw_get_covered {X : Fin 64} {Y : Fin 32} (hc : s.spriteCovers (s.getV x) (s.getV y) n.val X Y) :
    Display.get t.px X Y = !Display.get s.px X Y := by
  obtain ⟨htoggled, -, -⟩ := s.sprite_spec (s.getV x) (s.getV y) n
  obtain rfl := Host.Outcome.next.inj h
  exact htoggled X Y hc

theorem exec_drw_get_kept {X : Fin 64} {Y : Fin 32} (hc : ¬ s.spriteCovers (s.getV x) (s.getV y) n.val X Y) :
    Display.get t.px X Y = Display.get s.px X Y := by
  obtain ⟨-, hkept, -⟩ := s.sprite_spec (s.getV x) (s.getV y) n
  obtain rfl := Host.Outcome.next.inj h
  exact hkept X Y hc

theorem exec_drw_getV_vf : t.getV 15 = flagByte (s.sprite (s.getV x) (s.getV y) n.val).2 := by
  obtain rfl := Host.Outcome.next.inj h
  exact State.getV_setV_self _ vf _

theorem exec_drw_vf_eq_one_or_zero : t.getV 15 = 1 ∨ t.getV 15 = 0 := by
  rw [exec_drw_getV_vf h]
  cases (s.sprite (s.getV x) (s.getV y) n.val).2
  · exact .inr rfl
  · exact .inl rfl

theorem exec_drw_vf_eq_one_iff :
    t.getV 15 = 1 ↔ ∃ X Y, s.spriteCovers (s.getV x) (s.getV y) n.val X Y ∧ Display.get s.px X Y = true := by
  obtain ⟨-, -, hhit⟩ := s.sprite_spec (s.getV x) (s.getV y) n
  rw [exec_drw_getV_vf h]
  exact (flagByte_eq_one _).trans hhit

/-- On a display that was clear the covered pixels are set after the draw. -/
theorem exec_drw_get_of_clear (hclear : ∀ X Y, Display.get s.px X Y = false) {X : Fin 64} {Y : Fin 32}
    (hc : s.spriteCovers (s.getV x) (s.getV y) n.val X Y) : Display.get t.px X Y = true := by
  rw [exec_drw_get_covered h hc, hclear]
  rfl

/-- Neither the cells nor I are written, so the sprite's cells are read again as they were. -/
theorem exec_drw_readMem_ea (r : Nat) : t.readMem (t.ea r) = s.readMem (s.ea r) := by
  have hI : t.i = s.i := exec_changedOnly h .index (by simp [partsWritten])
  have hmem : ∀ a, t.readMem a = s.readMem a := exec_changedOnly h .mem (by simp [partsWritten])
  rw [State.ea_congr hI, hmem]

end

/-- Settles O43: the pixels and the flag from the sprite, the rest from the frame. -/
theorem drawTogglesTheCoveredPixels : Obligations.DrawTogglesTheCoveredPixels := by
  intro x y n s
  obtain ⟨t, ht⟩ := exec_total (.drw x y n) s
  exact ⟨decode_encode (.drw x y n), t, ht, fun _ _ => exec_drw_get_covered ht, fun _ _ => exec_drw_get_kept ht,
    exec_drw_vf_eq_one_or_zero ht, exec_drw_vf_eq_one_iff ht, exec_raises_df (by simp [partsWritten]) ht,
    pcFollowsTheTable _ _ _ ht, exec_keeps_regs ht, exec_changedOnly ht⟩

/-! ## The same sprite drawn twice (R213) -/

section
variable {x y x' y' : Reg} {n : Fin 16} {s t s' u : State} (h : exec (.drw x y n) s = .next t)
  (h' : exec (.drw x' y' n) s' = .next u) (hpx : Part.same t s' .px)
  (hcov : ∀ X Y, s'.spriteCovers (s'.getV x') (s'.getV y') n.val X Y ↔ s.spriteCovers (s.getV x) (s.getV y) n.val X Y)
include h' hpx hcov

include h in
/-- A covered pixel is toggled by both draws, any other pixel by neither. -/
theorem exec_drw_twice_px : Part.same s u .px := by
  intro X Y
  by_cases hc : s.spriteCovers (s.getV x) (s.getV y) n.val X Y
  · rw [exec_drw_get_covered h' ((hcov X Y).mpr hc), hpx, exec_drw_get_covered h hc, Bool.not_not]
  · rw [exec_drw_get_kept h' (mt (hcov X Y).mp hc), hpx, exec_drw_get_kept h hc]

theorem exec_drw_twice_vf_eq_one_iff :
    u.getV 15 = 1 ↔ ∃ X Y, s.spriteCovers (s.getV x) (s.getV y) n.val X Y ∧ Display.get t.px X Y = true := by
  have hget : ∀ X Y, Display.get s'.px X Y = Display.get t.px X Y := hpx
  simpa only [hcov, hget] using exec_drw_vf_eq_one_iff h'

end

/-- The same coordinates and the same cells give a second draw that covers the pixels of the first. -/
theorem exec_drw_again {x y x' y' : Reg} {n : Fin 16} {s t s' : State} (h : exec (.drw x y n) s = .next t)
    (hpx : Part.same t s' .px) (hx : s'.getV x' = s.getV x) (hy : s'.getV y' = s.getV y)
    (hread : ∀ r < n.val, s'.readMem (s'.ea r) = s.readMem (s.ea r)) :
    ∃ u, exec (.drw x' y' n) s' = .next u ∧ Part.same s u .px ∧
      (u.getV 15 = 1 ↔ ∃ X Y, s.spriteCovers (s.getV x) (s.getV y) n.val X Y ∧ Display.get t.px X Y = true) := by
  obtain ⟨u, hu⟩ := exec_total (.drw x' y' n) s'
  have hcov X Y : s'.spriteCovers (s'.getV x') (s'.getV y') n.val X Y ↔
      s.spriteCovers (s.getV x) (s.getV y) n.val X Y := by
    rw [hx, hy, State.spriteCovers_congr hread]
  exact ⟨u, hu, exec_drw_twice_px h hu hpx hcov, exec_drw_twice_vf_eq_one_iff hu hpx hcov⟩

/-- Settles O44. For x and y other than 15 the state after the first draw itself holds the old coordinates and the same
cells. -/
theorem drawingTwiceRestoresTheDisplay : Obligations.DrawingTwiceRestoresTheDisplay := by
  intro x y n s t h
  refine ⟨fun x' y' s' hpx hx hy hread => ?_, fun hx hy => ?_⟩
  · obtain ⟨u, hu, hrestored, hvf⟩ := exec_drw_again h hpx hx hy hread
    refine ⟨u, hu, hrestored, hvf, fun hclear => hvf.trans ?_⟩
    exact exists₂_congr fun _ _ => and_iff_left_of_imp (exec_drw_get_of_clear h hclear)
  · have hkept {r : Reg} (hr : r ≠ 15) : t.getV r = s.getV r := exec_keeps_regs h r (by simpa [regsWritten] using hr)
    exact exec_drw_again h (Part.same_refl _ _) (hkept hx) (hkept hy) fun r _ => exec_drw_readMem_ea h r

end Sys2Proof.Machine
end

section
/-!
PROOFS. Random number, keypad and timer registers (spec/45_keypad_timer_random.md). The frames are those of every instruction
and the skips end like the skips on registers; what the family adds is said once here: the key a register selects and the
byte of a key's number, each as a number.
-/

namespace Sys2Proof.Machine

/-! ## The random byte (R230) -/

theorem exec_rnd_getLsbD {x : Reg} {kk : Byte} {s t : State} (h : exec (.rnd x kk) s = .next t) (b : Nat) :
    (t.getV x).getLsbD b = ((Config.rndByte s.draws).getLsbD b && kk.getLsbD b) := by
  obtain rfl := Host.Outcome.next.inj h
  rw [State.getV_setV_advance, BitVec.getLsbD_and]

/-- Settles O45: a bit that is 0 in kk is 0 in the bitwise and, whatever was drawn. -/
theorem randomByteIsMasked : Obligations.RandomByteIsMasked := by
  intro x kk s
  obtain ⟨t, ht, hdraws⟩ : ∃ t, exec (.rnd x kk) s = .next t ∧ t.draws = s.draws + 1 := ⟨_, rfl, rfl⟩
  exact ⟨decode_encode (.rnd x kk), t, ht, fun b _ => exec_rnd_getLsbD ht b,
    fun b hb => by rw [exec_rnd_getLsbD ht, hb, Bool.and_false], hdraws, pcFollowsTheTable _ _ _ ht,
    exec_keeps_regs ht, exec_changedOnly ht⟩

/-! ## Keys (R231, R232, R234, R237) -/

/-- A register selects the key of its low four bits (D10). -/
theorem keySelect_eq {b : Byte} {k : Key} (hk : k.val = b.toNat % 16) : keySelect b = k := Fin.ext hk.symm

theorem toNat_keyByte (k : Key) : (keyByte k).toNat = k.val := by
  rw [keyByte, BitVec.toNat_ofNat, Nat.mod_eq_of_lt (by omega)]

/-- Settles O46: SKP skips when the selected key is pressed, SKNP unless it is. -/
theorem keySkips : Obligations.KeySkips := by
  intro x s k hk
  obtain rfl := keySelect_eq hk
  exact ⟨⟨decode_encode (.skp x), exec_skip rfl Iff.rfl⟩,
    decode_encode (.sknp x), exec_skip_unless rfl (by rw [Bool.not_eq_true', Bool.not_eq_true])⟩

/-- Settles O47: the scan finds the lowest pressed key, and finds none only when no key is pressed. -/
theorem keyWaitTakesTheLowestKey : Obligations.KeyWaitTakesTheLowestKey := by
  refine fun x s => ⟨decode_encode (.ldVxK x), fun k hpressed hlow => ?_, fun hup => ?_⟩
  · have hfirst : s.firstKey = some k := State.firstKey_eq_some.mpr ⟨hpressed, hlow⟩
    exact ⟨_, by rw [exec_ldVxK, hfirst, Option.elim_some], by rw [State.getV_setV_advance, toNat_keyByte],
      State.setV_advance_frame⟩
  · rw [exec_ldVxK, State.firstKey_eq_none.mpr hup, Option.elim_none]

/-! ## Timer registers (R233, R235, R236) -/

/-- Settles O48: one write each, to Vx or to a timer, and a step's one output is its outcome. -/
theorem timerRegisterMoves : Obligations.TimerRegisterMoves := fun x s =>
  ⟨⟨decode_encode (.ldVxDT x), _, rfl, State.getV_setV_advance, State.setV_advance_frame⟩,
    ⟨decode_encode (.ldDTVx x), _, rfl, rfl, rfl, exec_changedOnly_of_no_regs (i := .ldDTVx x) rfl rfl⟩,
    ⟨decode_encode (.ldSTVx x), _, rfl, rfl, rfl, exec_changedOnly_of_no_regs (i := .ldSTVx x) rfl rfl⟩,
    Op.tone_notMem_emits_step s⟩

end Sys2Proof.Machine
end

section
/-!
PROOFS. Conditions, the other operations and schedules (spec/60_exceptions.md). Every step answers a next state, and the one it
was taken in exactly in the four ways of standing still: any other instruction moves pc, sp or the latch. What `Tick` and a
completed `Step` or `Load` leave is said once, and what holds of one operation is carried over every sequence of them.
-/

namespace Sys2Proof.Machine

/-! ## Every step answers (R254), and the two stack conditions (R250, R251) -/

/-- Settles O5: with the latch set or at an unknown opcode the step stands still, and every meaning is total. -/
theorem everyStepAnswersNext : Obligations.EveryStepAnswersNext := by
  intro s
  by_cases hh : s.halt = .none
  · cases hd : decode s.fetch with
    | ok i => exact step_of_decode hh hd ▸ exec_total i s
    | error e => exact ⟨s, State.AtUnknownOpcode.step_eq ⟨hh, (decode_eq_error_iff.mp hd).2⟩⟩
  · exact ⟨s, State.Halted.step_eq hh⟩

/-- Settles O25: with no slot to push to or to pop from the meaning is `raise`, which writes the latch alone. -/
theorem stackConditionsSetOnlyTheLatch : Obligations.StackConditionsSetOnlyTheLatch := by
  refine ⟨fun nnn s hsp => ⟨s.raise .stackOverflow, ?_, rfl, s.changedOnly_raise _⟩,
    fun s hsp => ⟨s.raise .stackUnderflow, ?_, rfl, s.changedOnly_raise _⟩⟩
  · rw [exec_call, State.pushSlot_of_full hsp, Option.elim_none]
  · rw [exec_ret, State.popSlot_of_empty hsp, Option.elim_none]

/-! ## What a step returns where it changes nothing (R252, R256) -/

theorem CycleOutcome.ofStep_of_unknownOpcode {s : State} (h : s.AtUnknownOpcode) :
    CycleOutcome.ofStep s = .unknownOpcode s.fetch := by
  obtain ⟨hh, hunknown⟩ := h
  simp only [CycleOutcome.ofStep, hh, decode_eq_error_iff.mpr ⟨rfl, hunknown⟩]

theorem CycleOutcome.ofStep_of_halted {s : State} (h : s.Halted) : CycleOutcome.ofStep s = .ofHalt s.halt := by
  cases hh : s.halt with
  | none => exact absurd hh h
  | stackOverflow | stackUnderflow => simp only [CycleOutcome.ofStep, h.step_eq, hh]

/-- Settles O13: the decoder refuses the word, so the step leaves the state and reports the word. -/
theorem unknownOpcodeChangesNothing : Obligations.UnknownOpcodeChangesNothing := by
  intro s hh hunknown
  have hat : s.AtUnknownOpcode := ⟨hh, hunknown⟩
  exact ⟨hat.step_eq, by rw [Op.emits, CycleOutcome.ofStep_of_unknownOpcode hat]⟩

/-! ## The four ways of standing still (R269) -/

theorem State.WaitsForKey.step_eq {s : State} (h : s.WaitsForKey) : step s = .next s := by
  obtain ⟨hh, ⟨x, hd⟩, hup⟩ := h
  rw [step_of_decode hh hd, exec_ldVxK, State.firstKey_eq_none.mpr hup, Option.elim_none]

/-- The four ways are the key wait and the three that end a program. -/
theorem step_eq_self_of_standing {s : State} (h : s.WaitsForKey ∨ s.Ended) : step s = .next s :=
  h.elim State.WaitsForKey.step_eq State.Ended.step_eq

theorem core_run_of_step_eq {s : State} (h : step s = .next s) (k : Nat) : Host.Core.run core k s = .next s := by
  induction k with
  | zero => rfl
  | succ k ih =>
    have hcore : core.step s = .next s := h
    simp only [Host.Core.run, hcore, ih]

/-- Settles O20: a state that one step leaves as it was is what every later step finds. -/
theorem standingStillLasts : Obligations.StandingStillLasts := fun _ k h =>
  core_run_of_step_eq (step_eq_self_of_standing h) k

/-! ## No other step leaves the state as it was (R269) -/

/-- pc + 2 does not come back to pc in 16 bits (D3), nor does pc + 4. -/
theorem word_ne_add_two (p : Word) : p ≠ p + 2 := by bv_omega

theorem word_ne_add_four (p : Word) : p ≠ p + 4 := by bv_omega

theorem word_ne_skip (p : Word) (P : Prop) [Decidable P] : p ≠ if P then p + 4 else p + 2 := by
  split
  · exact word_ne_add_four p
  · exact word_ne_add_two p

section
variable {s : State}

/-- CALL raises sp or, on a full stack, sets the latch. -/
theorem exec_call_ne_self (nnn : Addr12) (hh : s.halt = .none) : exec (.call nnn) s ≠ .next s := by
  intro h
  by_cases hsp : s.sp.val < 16
  · have hs := Host.Outcome.next.inj ((exec_call_of_lt nnn hsp).symm.trans h)
    have hup : s.sp.val + 1 = s.sp.val := congrArg (·.sp.val) hs
    omega
  · have hlatch := exec_call_halt h
    rw [if_pos (by omega), hh] at hlatch
    cases hlatch

/-- RET lowers sp or, on an empty stack, sets the latch. -/
theorem exec_ret_ne_self (hh : s.halt = .none) : exec .ret s ≠ .next s := by
  intro h
  by_cases hsp : s.sp.val = 0
  · have hlatch := exec_ret_halt h
    rw [if_pos hsp, hh] at hlatch
    cases hlatch
  · have hk : s.sp.val = (⟨s.sp.val - 1, by omega⟩ : Fin 16).val + 1 := by simp only; omega
    have hs := Host.Outcome.next.inj ((exec_ret_of_succ hk).symm.trans h)
    have hdown : s.sp.val - 1 = s.sp.val := congrArg (·.sp.val) hs
    omega

/-- An instruction that changes nothing is a key wait or a jump to itself: CALL and RET move sp or the latch, and by the
table of R24 every other instruction moves pc. -/
theorem standing_of_exec_eq_self {i : Instr} (hh : s.halt = .none) (hd : decode s.fetch = .ok i) (h : exec i s = .next s) :
    s.WaitsForKey ∨ s.JumpsToItself := by
  have hpc := pcFollowsTheTable i s s h
  cases i
  case call nnn => exact absurd h (exec_call_ne_self nnn hh)
  case ret => exact absurd h (exec_ret_ne_self hh)
  case jp nnn => exact .inr ⟨hh, .inl ⟨nnn, hd, by rw [hpc]; exact (toNat_zextAddr nnn).symm⟩⟩
  case jpV0 nnn => exact .inr ⟨hh, .inr ⟨nnn, hd, by rw [hpc]; exact (toNat_zextAddr_add_zextByte nnn _).symm⟩⟩
  case ldVxK x =>
    obtain ⟨hkey, -⟩ | ⟨k, -, hs⟩ := exec_ldVxK_cases h
    · exact .inl ⟨hh, ⟨x, hd⟩, State.firstKey_eq_none.mp hkey⟩
    · exact absurd (congrArg State.pc hs) (word_ne_add_two s.pc)
  case seImm | sneImm | seReg | sneReg | skp | sknp => exact absurd hpc (word_ne_skip s.pc _)
  all_goals exact absurd hpc (word_ne_add_two s.pc)

end

/-- Settles O53: a step with the latch clear stands still at an unknown opcode or runs an instruction that changes nothing. -/
theorem onlyFourWaysOfStandingStill : Obligations.OnlyFourWaysOfStandingStill := by
  refine fun s => ⟨fun h => ?_, step_eq_self_of_standing⟩
  by_cases hh : s.halt = .none
  · cases hd : decode s.fetch with
    | ok i =>
      have hi : exec i s = .next s := (step_of_decode hh hd).symm.trans h
      rcases standing_of_exec_eq_self hh hd hi with hwait | hjump
      · exact .inl hwait
      · exact .inr (.inl hjump)
    | error e => exact .inr (.inr (.inl ⟨hh, (decode_eq_error_iff.mp hd).2⟩))
  · exact .inr (.inr (.inr hh))

/-! ## Tick (R262, R263) -/

section
variable {s : State}

theorem State.tick_of_clear (hh : s.halt = .none) : s.tick = (s.setDT (countDown s.dt)).setST (countDown s.st) := by
  simp only [State.tick, hh]

theorem State.tick_of_halted (h : s.Halted) : s.tick = s := by
  cases hh : s.halt with
  | none => exact absurd hh h
  | stackOverflow | stackUnderflow => simp only [State.tick, hh]

theorem State.toNat_tick_dt (hh : s.halt = .none) : s.tick.dt.toNat = s.dt.toNat - 1 := by
  rw [State.tick_of_clear hh, State.setST_dt, State.setDT_dt, toNat_countDown]

theorem State.toNat_tick_st (hh : s.halt = .none) : s.tick.st.toNat = s.st.toNat - 1 := by
  rw [State.tick_of_clear hh, State.setST_st, toNat_countDown]

theorem State.tickTone_iff : s.tickTone = true ↔ s.halt = .none ∧ s.st.toNat = 1 := by
  have hst : s.st = 1 ↔ s.st.toNat = 1 := BitVec.toNat_inj.symm
  rw [State.tickTone, Bool.and_eq_true, beq_iff_eq, beq_iff_eq, hst]

theorem Op.emits_tick_of_clear (hh : s.halt = .none) : Op.emits s .tick = if s.st.toNat = 1 then [.tone] else [] := by
  simp only [Op.emits, State.tickTone_iff, hh, true_and]

theorem Op.emits_tick_of_halted (h : s.Halted) : Op.emits s .tick = [] :=
  if_neg fun htone => h (State.tickTone_iff.mp htone).1

end

/-- Settles O49: the two timers are what a tick with the latch clear writes, and with the latch set it writes nothing. -/
theorem tickCountsDown : Obligations.TickCountsDown := fun s =>
  ⟨s.core.tick, rfl, s.core.changedOnly_tick,
    fun hh => ⟨State.toNat_tick_dt hh, State.toNat_tick_st hh, Op.emits_tick_of_clear hh⟩,
    fun h => ⟨State.tick_of_halted h, Op.emits_tick_of_halted h⟩⟩

theorem State.changedOnly_ticks (s : State) (k : Nat) : ChangedOnly [.dt, .st] s (s.ticks k) := by
  induction k with
  | zero => exact ChangedOnly.refl _ _
  | succ k ih => exact ih.trans (State.changedOnly_tick _)

section
variable {s : State} (hh : s.halt = .none)
include hh

theorem State.ticks_halt (k : Nat) : (s.ticks k).halt = .none := (s.changedOnly_ticks k .halt (by decide)).trans hh

theorem State.toNat_ticks_dt (k : Nat) : (s.ticks k).dt.toNat = s.dt.toNat - k := by
  induction k with
  | zero => rfl
  | succ k ih => rw [State.ticks, State.toNat_tick_dt (State.ticks_halt hh k), ih, Nat.sub_sub]

theorem State.toNat_ticks_st (k : Nat) : (s.ticks k).st.toNat = s.st.toNat - k := by
  induction k with
  | zero => rfl
  | succ k ih => rw [State.ticks, State.toNat_tick_st (State.ticks_halt hh k), ih, Nat.sub_sub]

/-- The tone sounds in the one tick that finds ST = 1, the last before ST is 0. -/
theorem State.tones_eq (k : Nat) : s.tones k = if 0 < s.st.toNat ∧ s.st.toNat ≤ k then 1 else 0 := by
  induction k with
  | zero => rw [State.tones, if_neg (by omega)]
  | succ k ih =>
    have htone : (s.ticks k).tickTone = true ↔ s.st.toNat = k + 1 := by
      rw [State.tickTone_iff, State.toNat_ticks_st hh]
      simp only [State.ticks_halt hh, true_and]
      omega
    simp only [State.tones, ih, htone]
    split_ifs <;> omega

end

/-- Settles O50, each timer and the tones by induction over the ticks. -/
theorem timersRunDown : Obligations.TimersRunDown := fun s k hh =>
  ⟨State.toNat_ticks_dt hh k, State.toNat_ticks_st hh k, State.tones_eq hh k, s.changedOnly_ticks k⟩

/-! ## The collaborators (R264, R265, R270) -/

/-- Settles O52: each collaborator's operation is one named write. -/
theorem collaboratorsTouchOnlyTheirOwn : Obligations.CollaboratorsTouchOnlyTheirOwn := fun s k down =>
  ⟨⟨s.core.setKey k down, rfl, by rw [State.getKey_setKey, if_pos rfl],
      fun j hj => by rw [State.getKey_setKey, if_neg hj], s.core.changedOnly_setKey k down⟩,
    ⟨s.core.setDF false, rfl, rfl, s.core.changedOnly_setDF false⟩⟩

/-! ## A completed Step or Load in a session (R303) -/

section
variable {s t : Session}

theorem Session.step_cases (h : s.step = .next t) :
    s.phase ≠ .beforeReset ∧ t.phase = .running ∧ Sys2Proof.Machine.step s.core = .next t.core := by
  have hp : s.phase ≠ .beforeReset := fun hp => by
    rw [Session.step_beforeReset hp] at h
    cases h
  obtain ⟨u, hu⟩ := everyStepAnswersNext s.core
  obtain rfl := Host.Outcome.next.inj ((Session.step_next hp hu).symm.trans h)
  exact ⟨hp, rfl, hu⟩

theorem Session.load_cases {image : List Byte} (h : s.load image = .next t) :
    s.phase = .ready ∧ t = ⟨.ready, s.core.copyFrom Config.progBase image⟩ := by
  by_cases hp : s.phase = .ready
  · by_cases hl : image.length > Config.maxImage
    · rw [Session.load_tooLong hp hl] at h
      cases h
    · exact ⟨hp, (Host.Outcome.next.inj ((Session.load_next hp hl).symm.trans h)).symm⟩
  · rw [Session.load_refused hp] at h
    cases h

/-! ## The set latch (R256) -/

theorem State.copyFrom_halt (s : State) (a : Nat) (image : List Byte) : (s.copyFrom a image).halt = s.halt := by
  rw [State.copyFrom_eq]

theorem Op.perform_keeps_latch {op : Op} (hs : s.core.Halted) (hop : op ≠ .reset) (h : op.perform s = .next t) :
    t.core.halt = s.core.halt := by
  cases op with
  | step =>
    obtain ⟨-, -, ht⟩ := Session.step_cases h
    exact congrArg State.halt (Host.Outcome.next.inj (ht.symm.trans hs.step_eq))
  | tick =>
    obtain rfl := Host.Outcome.next.inj h
    exact congrArg State.halt (State.tick_of_halted hs)
  | keyWrite | drawFlagClear =>
    obtain rfl := Host.Outcome.next.inj h
    rfl
  | reset => exact absurd rfl hop
  | load image =>
    obtain ⟨-, rfl⟩ := Session.load_cases h
    exact State.copyFrom_halt _ _ _

end

/-- Settles O14: `Step` and `Tick` find the latch set and stand still, and every operation but `Reset` keeps the latch. -/
theorem setLatchFreezesTheMachine : Obligations.SetLatchFreezesTheMachine := by
  intro s hs
  have hlatch : s.core.Halted := hs
  refine ⟨hlatch.step_eq, by rw [Op.emits, CycleOutcome.ofStep_of_halted hlatch],
    by rw [Op.perform, State.tick_of_halted hlatch], Op.emits_tick_of_halted hlatch, fun op t h hclear => ?_, _, rfl, rfl⟩
  by_contra hop
  exact hs ((Op.perform_keeps_latch hlatch hop h).symm.trans hclear)

/-! ## Memory's canonical form over every sequence (R30, R271) -/

theorem State.inv_tick {s : State} (hs : s.Inv) : s.tick.Inv := by
  by_cases hh : s.halt = .none
  · rw [State.tick_of_clear hh]
    exact hs
  · rwa [State.tick_of_halted hh]

theorem Op.perform_keeps_inv {op : Op} {s t : Session} (hs : s.core.Inv) (h : op.perform s = .next t) : t.core.Inv := by
  cases op with
  | step =>
    obtain ⟨-, -, ht⟩ := Session.step_cases h
    exact stepKeepsInvariant _ _ hs ht
  | tick =>
    obtain rfl := Host.Outcome.next.inj h
    exact State.inv_tick hs
  | keyWrite | drawFlagClear =>
    obtain rfl := Host.Outcome.next.inj h
    exact hs
  | reset =>
    obtain rfl := Host.Outcome.next.inj h
    exact Memory.wf_reset s.core.font
  | load image =>
    obtain ⟨-, rfl⟩ := Session.load_cases h
    exact State.inv_copyFrom hs _ image

/-! ## Sequences of operations (R70, R271) -/

theorem runOps_cons_of_next {op : Op} {s t : Session} (h : op.perform s = .next t) (ops : List Op) :
    runOps (op :: ops) s = runOps ops t := by
  simp only [runOps, h]

theorem runOps_singleton (op : Op) (s : Session) : runOps [op] s = op.perform s := by
  cases h : op.perform s <;> simp only [runOps, h]

/-- A completed sequence is its first operation, completed, and then the rest. -/
theorem runOps_cons_cases {op : Op} {ops : List Op} {s t : Session} (h : runOps (op :: ops) s = .next t) :
    ∃ u, op.perform s = .next u ∧ runOps ops u = .next t := by
  cases hop : op.perform s with
  | next u => exact ⟨u, rfl, runOps_cons_of_next hop ops ▸ h⟩
  | fault | refused => simp only [runOps, hop] at h; cases h

/-- What every completed operation keeps, every completed sequence keeps. -/
theorem runOps_induction {P : Session → Prop} (hP : ∀ op s t, P s → Op.perform s op = .next t → P t) {ops : List Op}
    {s t : Session} (hs : P s) (h : runOps ops s = .next t) : P t := by
  induction ops generalizing s with
  | nil => exact Host.Outcome.next.inj h ▸ hs
  | cons op ops ih =>
    obtain ⟨u, hu, ht⟩ := runOps_cons_cases h
    exact ih (hP op s u hs hu) ht

/-- Settles O4 from the one-operation case. -/
theorem everyScheduleKeepsInvariant : Obligations.EveryScheduleKeepsInvariant := fun _ _ _ hs h =>
  runOps_induction (P := fun s => s.core.Inv) (fun _ _ _ => Op.perform_keeps_inv) hs h

/-! ## Infinite sequences (R271) -/

theorem Op.perform_total {op : Op} {s : Session} (hp : s.phase ≠ .beforeReset) (hop : op.ordinary = true) :
    ∃ t, op.perform s = .next t ∧ t.phase ≠ .beforeReset := by
  cases op with
  | step =>
    obtain ⟨t, ht⟩ := everyStepAnswersNext s.core
    exact ⟨_, Session.step_next hp ht, nofun⟩
  | tick | keyWrite | drawFlagClear => exact ⟨_, rfl, hp⟩
  | reset | load => cases hop

theorem runOps_total {ops : List Op} {s : Session} (hp : s.phase ≠ .beforeReset)
    (hops : ∀ op ∈ ops, op.ordinary = true) : ∃ t, runOps ops s = .next t := by
  induction ops generalizing s with
  | nil => exact ⟨s, rfl⟩
  | cons op ops ih =>
    obtain ⟨hop, hrest⟩ := List.forall_mem_cons.mp hops
    obtain ⟨u, hu, hup⟩ := Op.perform_total hp hop
    exact runOps_cons_of_next hu ops ▸ ih hup hrest

/-- The sessions at the ends of its beginnings are the run of an infinite sequence. -/
theorem isRun_of_beginnings {ops : Nat → Op} {ss : Nat → Session} {s : Session}
    (h : ∀ k, runOps ((List.range k).map ops) s = .next (ss k)) : IsRun ops ss := fun k => by
  have hlonger : (List.range (k + 1)).map ops = (List.range k).map ops ++ [ops k] := by simp [List.range_succ]
  calc (ops k).perform (ss k)
    _ = runOps [ops k] (ss k) := (runOps_singleton _ _).symm
    _ = runOps ((List.range (k + 1)).map ops) s := by rw [hlonger, runOps_append (h k)]
    _ = .next (ss (k + 1)) := h (k + 1)

/-- Settles O56: each beginning completes, and its ends, the first of them `s` itself, are the run. -/
theorem everySequenceIsABehaviour : Obligations.EverySequenceIsABehaviour := by
  intro ops s hp hops
  have hbegin (k : Nat) : ∃ t, runOps ((List.range k).map ops) s = .next t :=
    runOps_total hp (List.forall_mem_map.mpr fun j _ => hops j)
  choose ss hss using hbegin
  exact ⟨ss, (Host.Outcome.next.inj (hss 0)).symm, isRun_of_beginnings hss, hss⟩

end Sys2Proof.Machine
end

section
/-!
PROOFS. Start-up and a program's obligations (spec/70_reset_and_hazards.md). An image within MAX_IMAGE bytes ends at or below
the last cell, so its copy never wraps onto itself; a call or return that keeps R311's obligations finds a stack slot, and a
store that keeps them stays past the font without wrapping.
-/

namespace Sys2Proof.Machine

/-! ## Copying an image (R304) -/

theorem cellOf_ofNat {a : Nat} (ha : a < 4096) : cellOf (BitVec.ofNat 16 a) = a := by
  rw [cellOf, Config.memSize, BitVec.toNat_ofNat]
  omega

theorem State.changedOnly_copyFrom (s : State) (a : Nat) (image : List Byte) : ChangedOnly [.mem] s (s.copyFrom a image) := by
  induction image generalizing s a with
  | nil => exact ChangedOnly.refl _ _
  | cons b bs ih => exact (s.changedOnly_writeMem _ b).trans (ih _ _)

theorem State.readMem_copyFrom_kept (s : State) {a : Nat} {image : List Byte} (hfit : a + image.length ≤ 4096) {c : Word}
    (hc : cellOf c < a ∨ a + image.length ≤ cellOf c) : (s.copyFrom a image).readMem c = s.readMem c := by
  induction image generalizing s a with
  | nil => rfl
  | cons b bs ih =>
    rw [List.length_cons] at hfit hc
    have hne : cellOf c ≠ cellOf (BitVec.ofNat 16 a) := by
      rw [cellOf_ofNat (by omega)]
      omega
    rw [State.copyFrom, ih _ (by omega) (by omega), State.readMem_writeMem, if_neg hne]

/-- Byte j is read back from cell a + j: what is copied after it goes to higher cells. -/
theorem State.readMem_copyFrom_copied (s : State) {a : Nat} {image : List Byte} (hfit : a + image.length ≤ 4096) {j : Nat}
    (hj : j < image.length) : (s.copyFrom a image).readMem (BitVec.ofNat 16 (a + j)) = image[j] := by
  induction image generalizing s a j with
  | nil => cases hj
  | cons b bs ih =>
    rw [List.length_cons] at hfit hj
    cases j with
    | zero =>
      have hbelow : cellOf (BitVec.ofNat 16 a) < a + 1 := by
        rw [cellOf_ofNat (by omega)]
        omega
      rw [Nat.add_zero, State.copyFrom, State.readMem_copyFrom_kept _ (by omega) (.inl hbelow), State.readMem_writeMem,
        if_pos rfl, List.getElem_cons_zero]
    | succ j =>
      have hshift : a + (j + 1) = a + 1 + j := by omega
      rw [State.copyFrom, hshift, ih _ (by omega) (by omega), List.getElem_cons_succ]

/-- Settles O51: the phase and the length choose the case, and an image of at most 3584 bytes fits from 0x200 on. -/
theorem loadCopiesTheImage : Obligations.LoadCopiesTheImage := by
  refine fun image s => ⟨fun hp => Session.load_refused hp image, Session.load_tooLong, fun hp hl => ?_⟩
  have hfit : 0x200 + image.length ≤ 4096 := by omega
  exact ⟨_, Session.load_next hp (not_lt_of_ge hl), fun _ hj => s.core.readMem_copyFrom_copied hfit hj,
    fun _ hc => s.core.readMem_copyFrom_kept hfit hc, s.core.changedOnly_copyFrom _ _⟩

/-! ## The order of start-up (R303) -/

/-- Settles O55, the phases by the laws of `Session.step` and `Session.load`; the other operations always act. -/
theorem startUpFollowsItsOrder : Obligations.StartUpFollowsItsOrder := by
  refine fun s => ⟨fun hp => ?_, fun hp => ?_, ?_, ⟨_, rfl⟩, ⟨_, rfl⟩, fun _ _ => ⟨_, rfl⟩⟩
  · exact ⟨Session.step_beforeReset hp, Session.load_refused (by rw [hp]; nofun)⟩
  · obtain ⟨t, ht⟩ := everyStepAnswersNext s.core
    exact ⟨t, ht, Session.step_next hp ht, Session.load_refused (s := ⟨.running, t⟩) nofun⟩
  · exact ⟨s.core.doReset, rfl, fun _ hl => ⟨_, Session.load_next (s := ⟨.ready, _⟩) rfl (not_lt_of_ge hl)⟩⟩

/-! ## A step within the source's promises (R311) -/

section
variable {s : State}

theorem State.withinPromises_cases (h : s.withinPromises = true) :
    s.halt = .none ∧ ∃ i, decode s.fetch = .ok i ∧ keepsPromises s i = true := by
  simp only [State.withinPromises, Bool.and_eq_true, decide_eq_true_eq] at h
  obtain ⟨⟨⟨⟨hh, -⟩, -⟩, -⟩, hkeeps⟩ := h
  cases hd : decode s.fetch with
  | ok i => exact ⟨hh, i, rfl, by simpa only [hd] using hkeeps⟩
  | error e => simp only [hd, Bool.false_eq_true] at hkeeps

/-- Cells above the font and within memory do not wrap onto the font. -/
theorem State.le_cellOf_ea {n k : Nat} (h : (s.cellsInRange n && s.cellsPastFont n) = true) (hk : k < n) :
    80 ≤ cellOf (s.ea k) := by
  obtain ⟨hin, hpast⟩ := Bool.and_eq_true_iff.mp h
  have hend : n = 0 ∨ s.i.toNat + n ≤ 4096 := of_decide_eq_true hin
  have hstart : n = 0 ∨ 80 ≤ s.i.toNat := of_decide_eq_true hpast
  rw [State.ea, cellOf_add]
  omega

variable {i : Instr} {t : State} (hkeeps : keepsPromises s i = true) (h : exec i s = .next t)
include hkeeps h

/-- A call with a free slot and a return with a used one raise nothing; no other instruction writes the latch. -/
theorem exec_keeps_latch_of_keepsPromises : t.halt = s.halt := by
  cases i
  case call nnn =>
    have hfree : s.sp.val < 16 := of_decide_eq_true hkeeps
    rw [exec_call_halt h, if_neg (by omega)]
  case ret =>
    have hused : 0 < s.sp.val := of_decide_eq_true hkeeps
    rw [exec_ret_halt h, if_neg (by omega)]
  all_goals exact exec_changedOnly h .halt (by simp [partsWritten])

/-- The two instructions that store, Fx33 and Fx55, do so at cell 80 or above. -/
theorem exec_keeps_font_of_keepsPromises {a : Word} (ha : cellOf a < 80) : t.readMem a = s.readMem a := by
  cases i
  case ldBVx x =>
    exact exec_ldBVx_readMem_kept h fun k hk => (ha.trans_le (State.le_cellOf_ea hkeeps hk)).ne'
  case storeRegs x =>
    exact exec_storeRegs_readMem_kept h fun r hr => (ha.trans_le (State.le_cellOf_ea hkeeps (Nat.lt_succ_of_le hr))).ne'
  all_goals exact exec_changedOnly h .mem (by simp [partsWritten]) a

end

/-- Settles O21: the step runs the decoded instruction, which keeps its obligation and so keeps the latch and the font. -/
theorem keptPromisesKeepTheMachineRunning : Obligations.KeptPromisesKeepTheMachineRunning := by
  intro s h
  obtain ⟨hh, i, hd, hkeeps⟩ := State.withinPromises_cases h
  obtain ⟨t, ht⟩ := exec_total i s
  have hclear : t.halt = .none := (exec_keeps_latch_of_keepsPromises hkeeps ht).trans hh
  have hok : CycleOutcome.ofStep s = .ok := by rw [CycleOutcome.ofStep_of_exec hh hd ht, hclear, CycleOutcome.ofHalt]
  exact ⟨t, (step_of_decode hh hd).trans ht, hclear, hok, fun _ => exec_keeps_font_of_keepsPromises hkeeps ht⟩

end Sys2Proof.Machine
end
